-- ==== Sys2Proof/Word.lean ====
section
/-! DEFINITION. The word types of the S-DES Feistel datapath: the command word and the register widths
(00_scope.md R1; 10_state.md R10; 30_encoding.md R40). -/

namespace Sys2Proof

/-- The 16-bit command word `CMD[15:0]` (R40). -/
abbrev CmdWord := BitVec 16

/-- The 10-bit master key (R11). -/
abbrev MasterKey := BitVec 10

/-- An 8-bit round key (R12). -/
abbrev RoundKey := BitVec 8

/-- The 8-bit data block (R13). -/
abbrev Block := BitVec 8

/-- A 5-bit key half (R70). -/
abbrev KeyHalf := BitVec 5

/-- A 4-bit data half (R80). -/
abbrev DataHalf := BitVec 4

/-- A permutation-table ROM of `m` entries of 4 bits, in position order; an entry's value is a 1-based position (R7, R22). -/
abbrev Table (m : Nat) := Vector (BitVec 4) m

/-- An S-box array: 4 rows of 4 columns of 2-bit entries (R23). -/
abbrev SBoxArray := Vector (Vector (BitVec 2) 4) 4

end Sys2Proof
end

