-- ==== Sys2Proof/Machine/Bits.lean ====
section
/-! DEFINITION. Bit vectors by position (00_scope.md R6, R8; 20_memory.md R31). The spec numbers a vector's positions from 0,
first bit first, and puts position 0 at the most significant bit of every bus; so a vector of length `n` is held as the
bus word that carries it, and its position `i` is that word's bit `n - 1 - i`.
Mark: DEDUCED (notes/assumptions/4.md); safe. -/

namespace Sys2Proof.Machine

/-- `v[i]`: the bit at position `i`, position 0 the most significant bit (R6, R8). -/
def pos {n : Nat} (v : BitVec n) (i : Nat) : Bool := v.getMsbD i

/-- The vector of length `n` whose position `i` holds `f i`. -/
def ofPos : (n : Nat) → (Nat → Bool) → BitVec n
  | 0, _ => 0#0
  | n + 1, f => (ofPos n f).concat (f n)

/-- `v[a .. a+len-1]`: the sub-vector of `len` positions from position `a` (R6). -/
def sub {n : Nat} (v : BitVec n) (a len : Nat) : BitVec len := ofPos len fun i => pos v (a + i)

/-- `a ‖ b`: concatenation, `a` first (R6). -/
def cat {n m : Nat} (a : BitVec n) (b : BitVec m) : BitVec (n + m) := a ++ b

/-- `w[lo+len-1 : lo]`: a bit field of a bus word, bit 0 least significant (R8). -/
def busField {n : Nat} (w : BitVec n) (lo len : Nat) : BitVec len := w.extractLsb' lo len

end Sys2Proof.Machine
end

