-- ==== Sys2Proof/Config.lean ====
section
/-! DEFINITION. The configuration record `CFG` of one hardware instance and the parameters the spec leaves open
(00_scope.md R4; 10_state.md R22, R23; 70_reset_and_hazards.md R119, R123; 92_eei_decisions.md D10, D17).
The table contents are OPEN parameters: the constants below have no body, so nothing can be proved of their values.
Mark: DESIGN CHOICE (notes/assumptions/1.md, notes/assumptions/7.md); safe. -/

namespace Sys2Proof

/-- The expansion table ROM `CFG.EP`: `EP_LEN` entries, `EP_LEN` in 0..8 (R4, R22, R86). -/
structure EpTable where
  /-- `EP_LEN`. -/
  len : Fin 9
  /-- The entries in position order. -/
  entries : Table len.val
deriving DecidableEq, Repr, Inhabited

/-- The configuration record `CFG` (R4): five permutation-table ROMs and two S-box arrays. P4 is no field (R24). -/
structure Cfg where
  /-- `CFG.P10`, used on the 10-bit master key. -/
  p10 : Table 10
  /-- `CFG.P8`, used on the 10 bits of the joined key halves. -/
  p8 : Table 8
  /-- `CFG.IP`, used on the 8-bit block. -/
  ip : Table 8
  /-- `CFG.EP`, used on the 4-bit Right half. -/
  ep : EpTable
  /-- `CFG.IPINV`, used on the 8 bits of the recombined halves. -/
  ipinv : Table 8
  /-- `CFG.SBOX0`, the S-box of the mixer's first half. -/
  sbox0 : SBoxArray
  /-- `CFG.SBOX1`, the S-box of the mixer's second half. -/
  sbox1 : SBoxArray
deriving DecidableEq, Repr, Inhabited

/-- The `CFG` of this instance: chosen by whoever instantiates the core, fixed before reset is released (R119). No body. -/
opaque Config.cfg : Cfg

/-- `LATENCY - 1` of the command word (R4, R123): `LATENCY` is positive and otherwise unspecified. No rule and no step
reads it; only the clocked view of Machine/Clock.lean is ever run on it. No body. -/
opaque Config.extraCycles : CmdWord → Nat

end Sys2Proof
end

