-- ==== Sys2Proof/Syntax.lean ====
section
/-! DEFINITION. The six commands, one constructor per row of spec/opcode_table.json (30_encoding.md R47), and the fields of
the command word's one format (R40). -/

namespace Sys2Proof

/-- The round-key select `KS` of ROUND (30_encoding.md R46). -/
inductive KeySel where
  /-- `KS = 0`: the round key `K1`. -/
  | k1
  /-- `KS = 1`: the round key `K2`. -/
  | k2
deriving DecidableEq, Repr

/-- A command (R47). Every operand has exactly the width its field gives it, so each term is a legal command. -/
inductive Instr where
  /-- NOP (43_host_commands.md R96). -/
  | nop
  /-- LDKEY `k` (R97): the 10-bit master key. -/
  | ldkey (k : MasterKey)
  /-- LDBLK `b` (R98): the 8-bit data block. -/
  | ldblk (b : Block)
  /-- KEYGEN (41_key_schedule.md R75). -/
  | keygen
  /-- ROUND `KS` (42_round_function.md R93). -/
  | round (ks : KeySel)
  /-- ENCRYPT (42_round_function.md R94). -/
  | encrypt
deriving DecidableEq, Repr

/-- The fields of format C (R40). -/
structure Fields where
  /-- `OP = CMD[15:12]` (R41). -/
  op : BitVec 4
  /-- `RSV = CMD[11:10]` (R42). -/
  rsv : BitVec 2
  /-- `ARG = CMD[9:0]` (R43). -/
  arg : BitVec 10
deriving DecidableEq, Repr

end Sys2Proof
end

