-- ==== Sys2Proof/WellFormed.lean ====
section
/-! DEFINITION. What is well formed: a command word's fields (30_encoding.md R42, R43, R48) and a configuration
(00_scope.md R4; 70_reset_and_hazards.md R119). A term of Instr needs no check: its types admit only legal operands.
Sys2Proof/Tests/Slice0.lean shows, for each check, an ill-formed term that it refuses. -/

namespace Sys2Proof

/-- The reserved field is zero (R42). -/
def Fields.rsvOk (f : Fields) : Bool := f.rsv == 0#2

/-- The operation code names a command (R47, R48 (a)). -/
def Fields.opOk (f : Fields) : Bool := decide (f.op.toNat ≤ 5)

/-- The bits of `ARG` that the operation does not use are zero (R43, R48 (c), (d), (e)). -/
def Fields.argOk (f : Fields) : Bool :=
  match f.op.toNat with
  | 0 => f.arg == 0#10
  | 2 => f.arg.extractLsb' 8 2 == 0#2
  | 3 => f.arg == 0#10
  | 4 => f.arg.extractLsb' 1 9 == 0#9
  | 5 => f.arg == 0#10
  | _ => true

/-- The fields are those of a legal word (R48). -/
def Fields.wf (f : Fields) : Bool := f.rsvOk && f.opOk && f.argOk

/-- Every entry of the table is a legal 1-based index into a vector of length `n` (R7, R58). -/
def entriesWithin (n : Nat) {m : Nat} (t : Table m) : Bool :=
  t.toList.all fun e => decide (1 ≤ e.toNat) && decide (e.toNat ≤ n)

/-- What the key schedule needs of `CFG` (R119): every entry of P10 and P8 in 1..10. -/
def Cfg.keyScheduleOk (c : Cfg) : Bool := entriesWithin 10 c.p10 && entriesWithin 10 c.p8

/-- What a round needs of `CFG` (R119): every entry of IP and IPINV in 1..8, `EP_LEN = 8`, every entry of EP in 1..4. -/
def Cfg.roundOk (c : Cfg) : Bool :=
  entriesWithin 8 c.ip && entriesWithin 4 c.ep.entries && decide (c.ep.len.val = 8) && entriesWithin 8 c.ipinv

/-- What a run that produces a ciphertext needs of `CFG` (R119). -/
def Cfg.ok (c : Cfg) : Bool := c.keyScheduleOk && c.roundOk

/-- `t2` is the inverse table of the true permutation `t1` (40_primitives.md R57): the entries of `t1` are legal indices
and `t2[t1[i] - 1] = i + 1` for every position `i`. -/
def inverseTables {n : Nat} (t1 t2 : Table n) : Bool :=
  entriesWithin n t1 &&
    (List.range n).all fun i => (t2[((t1[i]?).getD 0#4).toNat - 1]?).map BitVec.toNat == some (i + 1)

end Sys2Proof
end

