-- ==== Sys2Proof/Decode.lean ====
section
/-! DEFINITION. Decoding and encoding of the command word (30_encoding.md R40 to R50, R53). Decoding is total on 16-bit
words, reads no state, and rejects every reserved word under a name. -/

namespace Sys2Proof

open Sys2Proof.Machine

/-- Why a word is reserved (R48). The fault it raises records none of this (60_exceptions.md R100). -/
inductive Reserved where
  /-- `RSV != 00` (R42, R48 (b)). -/
  | rsvNotZero
  /-- `OP` in 0x6..0xF (R48 (a)). -/
  | opcode
  /-- A bit of `ARG` that the operation does not use is set (R43, R48 (c), (d), (e)). -/
  | unusedArg
deriving DecidableEq, Repr

/-- The fields of a word (R40). -/
def fieldsOf (w : CmdWord) : Fields := ⟨busField w 12 4, busField w 10 2, busField w 0 10⟩

/-- The word with the given fields (R40). -/
def wordOf (f : Fields) : CmdWord := f.op ++ f.rsv ++ f.arg

/-- LDKEY's operand: `k[i] = ARG[9-i]` (R44). -/
def keyOperand (w : CmdWord) : MasterKey := ofPos 10 fun i => w.getLsbD (9 - i)

/-- LDBLK's operand: `b[i] = ARG[7-i]` (R45). -/
def blockOperand (w : CmdWord) : Block := ofPos 8 fun i => w.getLsbD (7 - i)

/-- ROUND's operand: `KS = ARG[0]` (R46). -/
def selOperand (w : CmdWord) : KeySel := if w.getLsbD 0 then .k2 else .k1

/-- Decoding (R53). -/
def decode (w : CmdWord) : Except Reserved Instr :=
  if busField w 10 2 ≠ 0#2 then .error .rsvNotZero
  else match (busField w 12 4).toNat with
    | 0x0 => if busField w 0 10 = 0#10 then .ok .nop else .error .unusedArg
    | 0x1 => .ok (.ldkey (keyOperand w))
    | 0x2 => if busField w 8 2 = 0#2 then .ok (.ldblk (blockOperand w)) else .error .unusedArg
    | 0x3 => if busField w 0 10 = 0#10 then .ok .keygen else .error .unusedArg
    | 0x4 => if busField w 1 9 = 0#9 then .ok (.round (selOperand w)) else .error .unusedArg
    | 0x5 => if busField w 0 10 = 0#10 then .ok .encrypt else .error .unusedArg
    | _ => .error .opcode

/-- The operand field of a command (R44 to R46): position 0 of a key or block at the field's most significant bit. -/
def argOf : Instr → BitVec 10
  | .nop => 0#10
  | .ldkey k => k
  | .ldblk b => b.setWidth 10
  | .keygen => 0#10
  | .round .k1 => 0#10
  | .round .k2 => 1#10
  | .encrypt => 0#10

/-- The operation code of a command (R47). -/
def opOf : Instr → BitVec 4
  | .nop => 0x0#4
  | .ldkey _ => 0x1#4
  | .ldblk _ => 0x2#4
  | .keygen => 0x3#4
  | .round _ => 0x4#4
  | .encrypt => 0x5#4

/-- The word of a command (R47). -/
def encode (i : Instr) : CmdWord := wordOf ⟨opOf i, 0#2, argOf i⟩

/-- The command word whose bits the opcode table gives as `w` in a row of `nbits` bits: every command is one 16-bit word
(R50), `CMD[0]` is bit 0, and the bits above `nbits` are zero. -/
def tableWord (nbits w : Nat) : CmdWord := BitVec.ofNat 16 (w % 2 ^ nbits)

/-- The command that this decoder reads from the table word, or none where it refuses. -/
def decodeTableWord (nbits w : Nat) : Option Instr :=
  match decode (tableWord nbits w) with
  | .ok i => some i
  | .error _ => none

end Sys2Proof
end

