-- ==== Sys2Proof/Machine/State.lean ====
section
/-! DEFINITION. The state of the machine as plain data, the kinds of fault the spec names, and the state after reset
(10_state.md R10 to R13, R15, R22, R23, R26; 60_exceptions.md R100; 70_reset_and_hazards.md R116). -/

namespace Sys2Proof.Machine

/-- The spec's fault kinds (60_exceptions.md R100). Raising one is no stop of this model: it is a next state, made by fault
entry (R108), in which the core is halted. Mark: DEDUCED (notes/assumptions/6.md); safe. -/
inductive FaultKind where
  /-- A permutation table references an out-of-range input position (R101). -/
  | invalidTableIndex
  /-- XOR or S-box lookup given wrongly sized inputs (R102). -/
  | lengthMismatch
  /-- A character outside '0', '1' (R103): never raised by the core, reported by the assembler. -/
  | malformedBitInput
  /-- An accepted command word is reserved (R104). -/
  | illegalCommand
  /-- A command needs a register whose valid bit is 0 (R105). -/
  | operandNotReady
deriving DecidableEq, Repr

/-- The reasons for which a step of the model stops with a fault: there are none, so no definition raises one (safe). Every
fault of the spec is taken (R108) and gives a next state. Mark: DEDUCED (notes/assumptions/6.md). -/
inductive Fault where
deriving DecidableEq, Repr

/-- The reasons for which the model has no meaning for an instruction. -/
inductive Refusal where
  /-- The instruction `mnemonic` has no meaning yet: raised by an arm of exec alone. No arm raises it: every command of the
  opcode map has its meaning (safe). -/
  | notModelled (mnemonic : String)
deriving DecidableEq, Repr

/-- One sample of the input pins, that is, what the host drives during one step (10_state.md R21). -/
structure Pins where
  /-- `RST`, active high. -/
  rst : Bool
  /-- `CMD_VALID`. -/
  cmdValid : Bool
  /-- `CMD[15:0]`. -/
  cmd : CmdWord
deriving DecidableEq, Repr

/-- The state. `key` to `status` are the architectural registers (R10). `rom` is the read-only storage that holds `CFG`
(R22, R23): the spec counts it as configuration, and no step changes it; it stands here so that every statement about a
state is a statement about every configuration (DESIGN CHOICE, notes/assumptions/1.md; safe). `pins` is the model's own:
what the host will drive on the input pins, one sample a step (DESIGN CHOICE, notes/assumptions/2.md; safe). -/
structure State where
  /-- `KEY[0..9]`, the master key (R11). -/
  key : MasterKey
  /-- `K1[0..7]`, the first round key (R12). -/
  k1 : RoundKey
  /-- `K2[0..7]`, the second round key (R12). -/
  k2 : RoundKey
  /-- `BLK[0..7]`, the data block (R13). -/
  blk : Block
  /-- `STATUS[7:0]` (R15); its fields are read and written through Machine/Flags.lean. -/
  status : BitVec 8
  /-- The table ROMs and S-box arrays, holding `CFG` at all times (R22, R23, R26). -/
  rom : Cfg
  /-- The coming samples of the input pins, the next one first. -/
  pins : List Pins
deriving DecidableEq, Repr

/-- The reset state over the given table ROMs and coming input (R26, R116): every register zero. -/
def State.resetWith (rom : Cfg) (pins : List Pins) : State :=
  { key := 0#10, k1 := 0#8, k2 := 0#8, blk := 0#8, status := 0x00#8, rom := rom, pins := pins }

/-- The machine right after reset (R26, R116): the ROMs hold this instance's `CFG`, the host drives nothing yet
(DESIGN CHOICE, notes/assumptions/3.md). -/
def State.reset : State := State.resetWith Config.cfg []

end Sys2Proof.Machine
end

