-- ==== Sys2Proof/Machine/Flags.lean ====
section
/-! DEFINITION. The fields of STATUS and the fault codes (10_state.md R15 to R20; 60_exceptions.md R100). There are no
condition codes: no operation produces one (R15). -/

namespace Sys2Proof.Machine

/-- The bit of STATUS that holds `KEYV` (R16). -/
def keyvBit : Nat := 0

/-- The bit of STATUS that holds `RKV` (R17). -/
def rkvBit : Nat := 1

/-- The bit of STATUS that holds `BLKV` (R18). -/
def blkvBit : Nat := 2

/-- The bit of STATUS that holds `HALT` (R19). -/
def haltBit : Nat := 3

/-- The lowest bit of STATUS that holds `ERR`, bits 6:4 (R20). -/
def errLow : Nat := 4

/-- `STATUS.KEYV`: KEY holds a master key (R16). -/
def State.keyv (s : State) : Bool := s.status.getLsbD keyvBit

/-- `STATUS.RKV`: K1 and K2 hold round keys derived from KEY (R17). -/
def State.rkv (s : State) : Bool := s.status.getLsbD rkvBit

/-- `STATUS.BLKV`: BLK holds a data block (R18). -/
def State.blkv (s : State) : Bool := s.status.getLsbD blkvBit

/-- `STATUS.HALT`: the core has faulted and accepts no command (R19). -/
def State.halt (s : State) : Bool := s.status.getLsbD haltBit

/-- `STATUS.ERR`: the fault code, 0 for no fault (R20). -/
def State.err (s : State) : BitVec 3 := s.status.extractLsb' errLow 3

/-- A status word with one bit written. -/
def writeBit (st : BitVec 8) (n : Nat) (b : Bool) : BitVec 8 :=
  if b then st ||| (1#8 <<< n) else st &&& ~~~(1#8 <<< n)

/-- A status word with the `ERR` field written (R20). -/
def writeErr (st : BitVec 8) (c : BitVec 3) : BitVec 8 := (st &&& 0x8F#8) ||| (c.setWidth 8 <<< errLow)

/-- The code a fault kind writes to `STATUS.ERR` (R100). -/
def FaultKind.code : FaultKind → BitVec 3
  | .invalidTableIndex => 1#3
  | .lengthMismatch => 2#3
  | .malformedBitInput => 3#3
  | .illegalCommand => 4#3
  | .operandNotReady => 5#3

end Sys2Proof.Machine
end

