-- ==== Sys2Proof/Machine/Ops.lean ====
section
/-! DEFINITION. The named operations on the state: register writes, fault entry, reset, the output ports, and the one way a
command ends (00_scope.md R9; 10_state.md R21; 43_host_commands.md R95; 60_exceptions.md R108; 70_reset_and_hazards.md R115).
There is no memory to read or write (20_memory.md R27, R30) and no return from a fault but reset (R110). -/

namespace Sys2Proof.Machine

/-- What executing a command answers. -/
abbrev Result := Host.Outcome State Fault Refusal

/-- `KEY <- k`. -/
def State.setKey (s : State) (k : MasterKey) : State := { s with key := k }

/-- `K1 <- k1` and `K2 <- k2`: the round keys are always written together (R12). -/
def State.setRoundKeys (s : State) (k1 k2 : RoundKey) : State := { s with k1 := k1, k2 := k2 }

/-- `BLK <- b`. -/
def State.setBlk (s : State) (b : Block) : State := { s with blk := b }

/-- `STATUS.KEYV <- b`. -/
def State.setKeyv (s : State) (b : Bool) : State := { s with status := writeBit s.status keyvBit b }

/-- `STATUS.RKV <- b`. -/
def State.setRkv (s : State) (b : Bool) : State := { s with status := writeBit s.status rkvBit b }

/-- `STATUS.BLKV <- b`. -/
def State.setBlkv (s : State) (b : Bool) : State := { s with status := writeBit s.status blkvBit b }

/-- Fault entry (R108): `ERR <- c`, `HALT <- 1`, nothing else changes. -/
def State.faultEntry (s : State) (c : FaultKind) : State :=
  { s with status := writeBit (writeErr s.status c.code) haltBit true }

/-- What RST does (R115, R116): every register becomes zero; the table ROMs, and what the host will drive next, stay. -/
def State.resetCore (s : State) : State := State.resetWith s.rom s.pins

/-- The end of a command (R9, R95): its register writes all together, or, where a fault was raised, none of them and fault
entry on the state before the command (R109). -/
def finish (s : State) (r : Except FaultKind State) : Result :=
  match r with
  | .ok t => .next t
  | .error c => .next (s.faultEntry c)

/-- The state with which a command starts: the pin sample that presented it is used up. -/
def State.withPins (s : State) (ps : List Pins) : State := { s with pins := ps }

/-- The port `K1_O[7:0]`: `K1_O[7-i] = K1[i]` (R21, R8). -/
def State.k1O (s : State) : BitVec 8 := s.k1

/-- The port `K2_O[7:0]` (R21). -/
def State.k2O (s : State) : BitVec 8 := s.k2

/-- The port `BLK_O[7:0]` (R21). -/
def State.blkO (s : State) : BitVec 8 := s.blk

/-- The port `STATUS_O[7:0]` (R15, R21). Bit 7 is reserved and always reads 0.
Mark: DEDUCED (notes/assumptions/9.md); safe. -/
def State.statusO (s : State) : BitVec 8 := s.status &&& 0x7F#8

/-- The port `FAULT_O` (R19, R21, R106). -/
def State.faultO (s : State) : Bool := s.halt

/-- The port `CMD_READY` of a core that is executing no command (R21, R95): 1 exactly when it is not halted, and 0 while
`RST = 1` (R115). -/
def State.cmdReady (rst : Bool) (s : State) : Bool := !rst && !s.halt

end Sys2Proof.Machine
end

