-- ==== Sys2Proof/Machine/Operands.lean ====
section
/-! DEFINITION. The operands of the commands: implied source registers and their valid bits (30_encoding.md R43, R46;
10_state.md R28; 60_exceptions.md R105). Immediates come whole from the decoder (R44, R45); there are no addressing modes
(43_host_commands.md R99). -/

namespace Sys2Proof.Machine

/-- The round key that ROUND's operand selects: `K1` when `KS = 0`, `K2` when `KS = 1` (R46, R93). -/
def State.roundKey (s : State) : KeySel → RoundKey
  | .k1 => s.k1
  | .k2 => s.k2

/-- KEYGEN's source: `KEY`, or `OperandNotReady` when no master key is loaded (R75, R105). -/
def masterKeyOperand (s : State) : Except FaultKind MasterKey :=
  if s.keyv then .ok s.key else .error .operandNotReady

/-- The block operand of ROUND and ENCRYPT: `BLK`, or `OperandNotReady` when the round keys or the block are not valid
(R93, R94, R105). -/
def blkOperand (s : State) : Except FaultKind Block :=
  if s.rkv && s.blkv then .ok s.blk else .error .operandNotReady

end Sys2Proof.Machine
end

