-- ==== Sys2Proof/Machine/HostCommands.lean ====
section
/-! DEFINITION. The commands that do no cipher computation: NOP, LDKEY, LDBLK (43_host_commands.md R96 to R98). They raise no
fault of their own. -/

namespace Sys2Proof.Machine

/-- NOP (R96): no register, no flag and no port changes. -/
def execNop (s : State) : Result := finish s (.ok s)

/-- LDKEY (R97): the key is loaded, the old round keys are zeroed and made invalid. -/
def execLdkey (k : MasterKey) (s : State) : Result :=
  finish s (.ok ((((s.setKey k).setRoundKeys 0#8 0#8).setKeyv true).setRkv false))

/-- LDBLK (R98): the block is loaded. -/
def execLdblk (b : Block) (s : State) : Result := finish s (.ok ((s.setBlk b).setBlkv true))

end Sys2Proof.Machine
end

