-- ==== Sys2Proof/Machine/Units.lean ====
section
/-! DEFINITION. The four combinational units PERM, ROTL, XOR and SBOX (40_primitives.md R55 to R68), the reads of table ROMs
and S-box arrays (00_scope.md R9; 20_memory.md R30, R33), and the hardwired table P4 (10_state.md R24). Each is a function of
its operands alone and answers a vector or a fault (R68). -/

namespace Sys2Proof.Machine

/-- `TabRead(T, i)`: the entry at 0-based position `i` (R9). PERM reads positions `0..len(T)-1` only, so the value at other
positions, 0, is never used (R32). Mark: DESIGN CHOICE (notes/assumptions/13.md); safe. -/
def tabRead {m : Nat} (t : Table m) (i : Nat) : Nat := ((t[i]?).getD 0#4).toNat

/-- `SBoxRead(S, r, c)`: the entry at row `r`, column `c` (R9, R23). -/
def sboxRead (a : SBoxArray) (r c : Fin 4) : BitVec 2 := (a[r])[c]

/-- The index check of PERM on an input of length `n` (R32, R56): every entry is in `1..n`. -/
def indexCheck (n : Nat) {m : Nat} (t : Table m) : Bool :=
  (List.range m).all fun i => decide (1 ≤ tabRead t i) && decide (tabRead t i ≤ n)

/-- `PERM(v, T)` (R55, R56): `result[i] = v[T[i] - 1]`; no vector at all when an entry is out of range. -/
def perm {n m : Nat} (v : BitVec n) (t : Table m) : Except FaultKind (BitVec m) :=
  if indexCheck n t then .ok (ofPos m fun i => pos v (tabRead t i - 1)) else .error .invalidTableIndex

/-- `ROTL(v, s)` (R59, R60): `result[i] = v[(i + s) mod len(v)]`. -/
def rotl {n : Nat} (v : BitVec n) (s : Nat) : BitVec n := ofPos n fun i => pos v ((i + s) % n)

/-- `XOR(a, b)` (R61, R62): elementwise, or `LengthMismatch` when the lengths differ. The result has both operands' length. -/
def xor {n m : Nat} (a : BitVec n) (b : BitVec m) : Except FaultKind (BitVec m) :=
  if n = m then .ok (ofPos m fun i => pos a i ^^ pos b i) else .error .lengthMismatch

/-- `2*a + b` on two bits, a row or column index in 0..3 (R64, R67). -/
def twoBits (a b : Bool) : Fin 4 := Fin.ofNat 4 (2 * a.toNat + b.toNat)

/-- The row index of an S-box input: its outer two bits (R64). -/
def sboxRow {n : Nat} (v : BitVec n) : Fin 4 := twoBits (pos v 0) (pos v 3)

/-- The column index of an S-box input: its inner two bits (R64). -/
def sboxCol {n : Nat} (v : BitVec n) : Fin 4 := twoBits (pos v 1) (pos v 2)

/-- `[e div 2, e mod 2]`: an S-box entry as a vector, high bit first (R64, R66). -/
def entryBits (e : BitVec 2) : BitVec 2 := ofPos 2 fun i => if i = 0 then e.toNat / 2 == 1 else e.toNat % 2 == 1

/-- `SBOX(v, S)` (R64, R65): the entry that the input addresses, or `LengthMismatch` when the input is not 4 bits long. -/
def sbox {n : Nat} (v : BitVec n) (a : SBoxArray) : Except FaultKind (BitVec 2) :=
  if n = 4 then .ok (entryBits (sboxRead a (sboxRow v) (sboxCol v))) else .error .lengthMismatch

/-- The table P4, hardwired inside the core (R24). -/
def p4 : Table 4 := #v[2#4, 4#4, 3#4, 1#4]

end Sys2Proof.Machine
end

