-- ==== Sys2Proof/Machine/KeySchedule.lean ====
section
/-! DEFINITION. The key-schedule engine KS and the command KEYGEN (41_key_schedule.md R70 to R75). -/

namespace Sys2Proof.Machine

/-- The named values of the key schedule (R70). All but `k1` and `k2` are transient (10_state.md R25); they are kept by name
so that the two-stage rotation can be checked (R72). -/
structure KsTrace where
  /-- The P10 output. -/
  p : BitVec 10
  /-- Left, before any rotation. -/
  kl0 : KeyHalf
  /-- Right, before any rotation. -/
  kr0 : KeyHalf
  /-- Left of the LS-1 state. -/
  kl1 : KeyHalf
  /-- Right of the LS-1 state. -/
  kr1 : KeyHalf
  /-- The first round key. -/
  k1 : RoundKey
  /-- Left of the LS-2 state. -/
  kl2 : KeyHalf
  /-- Right of the LS-2 state. -/
  kr2 : KeyHalf
  /-- The second round key. -/
  k2 : RoundKey
deriving DecidableEq, Repr

/-- The six steps of the key schedule, each named value kept (R70, R71, R72). -/
def ksTrace (c : Cfg) (key : MasterKey) : Except FaultKind KsTrace := do
  let p ← perm key c.p10
  let kl0 : KeyHalf := sub p 0 5
  let kr0 : KeyHalf := sub p 5 5
  let kl1 := rotl kl0 1
  let kr1 := rotl kr0 1
  let k1 ← perm (cat kl1 kr1) c.p8
  let kl2 := rotl kl1 2
  let kr2 := rotl kr1 2
  let k2 ← perm (cat kl2 kr2) c.p8
  .ok { p, kl0, kr0, kl1, kr1, k1, kl2, kr2, k2 }

/-- `KS(key)`: the two round keys, or a fault (R70, R73). -/
def ks (c : Cfg) (key : MasterKey) : Except FaultKind (RoundKey × RoundKey) := do
  let t ← ksTrace c key
  .ok (t.k1, t.k2)

/-- KEYGEN's register writes, or the fault it raises: the valid bit is tested first, then KS (R75). -/
def keygenWrites (s : State) : Except FaultKind State := do
  let key ← masterKeyOperand s
  let (k1, k2) ← ks s.rom key
  .ok ((s.setRoundKeys k1 k2).setRkv true)

/-- KEYGEN (R75). -/
def execKeygen (s : State) : Result := finish s (keygenWrites s)

end Sys2Proof.Machine
end

