-- ==== Sys2Proof/Machine/RoundFunction.lean ====
section
/-! DEFINITION. The round-function pipeline RF, its two-fold application ENC2, and the commands ROUND and ENCRYPT
(42_round_function.md R80 to R94). The halves are never swapped (R89, R91; 90_conflicts.md C2). An EP table of any length is
applied as it is (R86; 90_conflicts.md C1). Mark: DEDUCED (notes/assumptions/10.md); safe. -/

namespace Sys2Proof.Machine

/-- The named values of a round (R80), all transient (10_state.md R25); `n` is `EP_LEN`. -/
structure RfTrace (n : Nat) where
  /-- The IP output. -/
  p : BitVec 8
  /-- Left, positions 0..3. -/
  l : DataHalf
  /-- Right, positions 4..7. -/
  r : DataHalf
  /-- The EP output, `EP_LEN` bits. -/
  e : BitVec n
  /-- The key mixer's output. -/
  x : BitVec 8
  /-- SBox0's output. -/
  s0 : BitVec 2
  /-- SBox1's output. -/
  s1 : BitVec 2
  /-- The two S-box outputs joined. -/
  s : BitVec 4
  /-- The P4 output. -/
  q : BitVec 4
  /-- The new Left half. -/
  l' : DataHalf
  /-- The result, after IP⁻¹. -/
  out : Block
deriving DecidableEq, Repr

/-- The eight steps of a round, each named value kept; the first that faults ends it (R80, R81 to R89, R92). -/
def rfTrace (c : Cfg) (b : Block) (k : RoundKey) : Except FaultKind (RfTrace c.ep.len.val) := do
  let p ← perm b c.ip
  let l : DataHalf := sub p 0 4
  let r : DataHalf := sub p 4 4
  let e ← perm r c.ep.entries
  let x ← xor e k
  let s0 ← sbox (sub x 0 4) c.sbox0
  let s1 ← sbox (sub x 4 4) c.sbox1
  let s := cat s0 s1
  let q ← perm s p4
  let l' ← xor q l
  let out ← perm (cat l' r) c.ipinv
  .ok { p, l, r, e, x, s0, s1, s, q, l', out }

/-- `RF(b, k)`: one round, or a fault (R80). -/
def rf (c : Cfg) (b : Block) (k : RoundKey) : Except FaultKind Block := do
  let t ← rfTrace c b k
  .ok t.out

/-- `ENC2(b, k1, k2) = RF(RF(b, k1), k2)`, with no swap between the rounds (R90, R91). -/
def enc2 (c : Cfg) (b : Block) (k1 k2 : RoundKey) : Except FaultKind Block := do
  let b1 ← rf c b k1
  rf c b1 k2

/-- ROUND's register writes, or the fault it raises: the valid bits are tested first, then RF (R93). -/
def roundWrites (sel : KeySel) (s : State) : Except FaultKind State := do
  let b ← blkOperand s
  let b' ← rf s.rom b (s.roundKey sel)
  .ok (s.setBlk b')

/-- ENCRYPT's register writes, or the fault it raises; the first round's output is never written (R94). -/
def encryptWrites (s : State) : Except FaultKind State := do
  let b ← blkOperand s
  let b' ← enc2 s.rom b s.k1 s.k2
  .ok (s.setBlk b')

/-- ROUND (R93). -/
def execRound (sel : KeySel) (s : State) : Result := finish s (roundWrites sel s)

/-- ENCRYPT (R94). -/
def execEncrypt (s : State) : Result := finish s (encryptWrites s)

end Sys2Proof.Machine
end

