-- ==== Sys2Proof/Machine/Dispatch.lean ====
section
/-! DEFINITION. The meaning of each command, one arm per constructor of Instr (43_host_commands.md R95). exec is the meaning
of a command that has been accepted; whether one is accepted is Machine/Handshake.lean's. Mark: DEDUCED
(notes/assumptions/12.md); safe. -/

namespace Sys2Proof.Machine

/-- What executing an accepted command does (R95). -/
def exec (i : Instr) (s : State) : Host.Outcome State Fault Refusal :=
  match i with
  | .nop => Sys2Proof.Machine.execNop s
  | .ldkey k => Sys2Proof.Machine.execLdkey k s
  | .ldblk b => Sys2Proof.Machine.execLdblk b s
  | .keygen => Sys2Proof.Machine.execKeygen s
  | .round sel => Sys2Proof.Machine.execRound sel s
  | .encrypt => Sys2Proof.Machine.execEncrypt s

end Sys2Proof.Machine
end

