-- ==== Sys2Proof/Machine/Handshake.lean ====
section
/-! DEFINITION. Acceptance of a command at the ports (10_state.md R21; 43_host_commands.md R95; 60_exceptions.md R104, R110;
70_reset_and_hazards.md R115, R117, R120). The machine fetches nothing from a memory: a step reads one sample of the input
pins. Marks: notes/assumptions/2.md, 5.md (DESIGN CHOICE, DEDUCED); safe. -/

namespace Sys2Proof.Machine

/-- Whether the pins transfer a command word: `CMD_VALID = 1` and `CMD_READY = 1` (R95). -/
def State.accepts (s : State) (p : Pins) : Bool := p.cmdValid && s.cmdReady p.rst

/-- Decoding and executing an accepted word (R95): a reserved word raises `IllegalCommand`, before anything else about it is
tested (R104, R107). -/
def runWord (w : CmdWord) (s : State) : Result :=
  match decode w with
  | .ok i => exec i s
  | .error _ => finish s (.error .illegalCommand)

/-- What the core does with one sample of its pins: RST resets it, from any state (R115, R117); a command it accepts is run;
a word presented while `CMD_READY = 0` has no effect (R110, R120); without a word the core waits (R114). -/
def pinStep (p : Pins) (s : State) : Result :=
  if p.rst then .next s.resetCore
  else if s.accepts p then runWord p.cmd s
  else .next s

/-- One step: the next pin sample is used up and acted on; with none, the core waits (R114). -/
def handshake (s : State) : Result :=
  match s.pins with
  | [] => .next s
  | p :: ps => pinStep p (s.withPins ps)

/-- The pin sample with which the host presents a command word (R95). -/
def present (w : CmdWord) : Pins := { rst := false, cmdValid := true, cmd := w }

/-- The pin sample with which the host asserts RST (R115). -/
def assertRst : Pins := { rst := true, cmdValid := false, cmd := 0#16 }

/-- The state in which the host presents `w` at the next step, and after it what it was going to drive before. -/
def State.presentNext (s : State) (w : CmdWord) : State := s.withPins (present w :: s.pins)

end Sys2Proof.Machine
end

