-- ==== Sys2Proof/Machine/Step.lean ====
section
/-! DEFINITION. The step of the machine (43_host_commands.md R95), and the placing of a command word where the next step
takes its command from: the input pins (10_state.md R14, R21; notes/assumptions/2.md). -/

namespace Sys2Proof.Machine

/-- One step of the machine. -/
def step (s : State) : Host.Outcome State Fault Refusal := Sys2Proof.Machine.handshake s

/-- The state in which the host presents the table word at the next step. -/
def State.withFetchWord (s : State) (nbits w : Nat) : State := s.presentNext (Sys2Proof.tableWord nbits w)

end Sys2Proof.Machine
end

