-- ==== Sys2Proof/Machine/Assembler.lean ====
section
/-! DEFINITION. The text form of a command and the pseudo-instruction SDES (30_encoding.md R51, R52; 60_exceptions.md R103).
A text is a list of characters. This is the boundary outside the core, where `MalformedBitInput` is detected (R103). -/

namespace Sys2Proof.Machine

/-- Why a text yields no command word. -/
inductive AsmError where
  /-- A bit string has a character other than '0' or '1', or the wrong length (R51): the spec's `MalformedBitInput`. -/
  | fault (k : FaultKind)
  /-- The text is not the text form of any command (R51). Mark: DESIGN CHOICE (notes/assumptions/11.md); safe. -/
  | noCommand
deriving DecidableEq, Repr

/-- The characters of a bit vector, in position order (R6, R51). -/
def bitText {n : Nat} (v : BitVec n) : List Char := (List.range n).map fun i => if pos v i then '1' else '0'

/-- The bits of a string of '0' and '1' characters, or none at the first other character. -/
def textBits : List Char → Option (List Bool)
  | [] => some []
  | '0' :: cs => (textBits cs).map (false :: ·)
  | '1' :: cs => (textBits cs).map (true :: ·)
  | _ :: _ => none

/-- A bit-vector operand of exactly `n` characters (R51), or `MalformedBitInput` (R103). -/
def bitOperand (n : Nat) (cs : List Char) : Except AsmError (BitVec n) :=
  match textBits cs with
  | some bs => if bs.length = n then .ok (ofPos n fun i => bs.getD i false) else .error (.fault .malformedBitInput)
  | none => .error (.fault .malformedBitInput)

/-- The text form of a command (R51). -/
def textOf : Instr → List Char
  | .nop => ['N', 'O', 'P']
  | .ldkey k => ['L', 'D', 'K', 'E', 'Y', ' '] ++ bitText k
  | .ldblk b => ['L', 'D', 'B', 'L', 'K', ' '] ++ bitText b
  | .keygen => ['K', 'E', 'Y', 'G', 'E', 'N']
  | .round .k1 => ['R', 'O', 'U', 'N', 'D', ' ', 'K', '1']
  | .round .k2 => ['R', 'O', 'U', 'N', 'D', ' ', 'K', '2']
  | .encrypt => ['E', 'N', 'C', 'R', 'Y', 'P', 'T']

/-- The command that a text names (R51). -/
def parseCommand (cs : List Char) : Except AsmError Instr :=
  match cs with
  | 'L' :: 'D' :: 'K' :: 'E' :: 'Y' :: ' ' :: rest => (bitOperand 10 rest).map Instr.ldkey
  | 'L' :: 'D' :: 'B' :: 'L' :: 'K' :: ' ' :: rest => (bitOperand 8 rest).map Instr.ldblk
  | ['N', 'O', 'P'] => .ok .nop
  | ['K', 'E', 'Y', 'G', 'E', 'N'] => .ok .keygen
  | ['R', 'O', 'U', 'N', 'D', ' ', 'K', '1'] => .ok (.round .k1)
  | ['R', 'O', 'U', 'N', 'D', ' ', 'K', '2'] => .ok (.round .k2)
  | ['E', 'N', 'C', 'R', 'Y', 'P', 'T'] => .ok .encrypt
  | _ => .error .noCommand

/-- The four commands of the pseudo-instruction `SDES k, b`, in order (R52). -/
def sdes (k : MasterKey) (b : Block) : List Instr := [.ldkey k, .keygen, .ldblk b, .encrypt]

/-- The text form of the pseudo-instruction (R52). -/
def sdesText (k : MasterKey) (b : Block) : List Char :=
  ['S', 'D', 'E', 'S', ' '] ++ bitText k ++ [',', ' '] ++ bitText b

/-- The operands of a text `<key10>, <blk8>` (R52). -/
def sdesOperands (cs : List Char) : Except AsmError (List Instr) :=
  match cs.drop 10 with
  | ',' :: ' ' :: rest => do
    let k ← bitOperand 10 (cs.take 10)
    let b ← bitOperand 8 rest
    .ok (sdes k b)
  | _ => .error (.fault .malformedBitInput)

/-- The command words of a text: those of the pseudo-instruction, or the one word of a command (R51, R52). -/
def assemble (cs : List Char) : Except AsmError (List CmdWord) :=
  match cs with
  | 'S' :: 'D' :: 'E' :: 'S' :: ' ' :: rest => (sdesOperands rest).map (·.map encode)
  | _ => (parseCommand cs).map fun i => [encode i]

end Sys2Proof.Machine
end

