-- ==== Sys2Proof/Machine/Clock.lean ====
section
/-! DEFINITION. The core seen clock by clock: the busy period of a command, which the step of the machine has no time for
(10_state.md R21; 43_host_commands.md R95; 70_reset_and_hazards.md R115, R117, R120, R121, R123). It is a second view over the
same state and the same meanings; the step of Machine/Step.lean is the one the spec defines. RST is sampled once a tick.
Mark: DESIGN CHOICE (notes/assumptions/7.md); safe. -/

namespace Sys2Proof.Machine

/-- The core between two clock cycles: the registers, and the command in flight with the number of cycles it still takes
after the coming one. -/
structure Clocked where
  /-- The registers, with the values they had before the command in flight (R95). -/
  core : State
  /-- The word in flight and the cycles left, or none when the core is idle. -/
  busy : Option (CmdWord × Nat)
deriving DecidableEq, Repr

/-- The clocked core after reset: idle. -/
def Clocked.reset : Clocked := { core := State.reset, busy := none }

/-- The state once a word has been executed to completion. Executing a word always answers a next state. -/
def completed (w : CmdWord) (s : State) : State :=
  match runWord w s with
  | .next t => t
  | .fault _ => s
  | .refused _ => s

/-- One cycle of the command in flight: its last cycle makes all its register writes together, the ones before it none (R95). -/
def advance (w : CmdWord) (left : Nat) (s : State) : Clocked :=
  match left with
  | 0 => { core := completed w s, busy := none }
  | n + 1 => { core := s, busy := some (w, n) }

/-- The port `CMD_READY` (R21, R95, R115): 1 exactly when the core is idle, not halted and not in reset. -/
def Clocked.cmdReady (rst : Bool) (c : Clocked) : Bool := c.busy.isNone && c.core.cmdReady rst

/-- One clock cycle. `extra w` is `LATENCY - 1` of the word `w` (R123). RST abandons the command in flight (R117); while the
core is busy, `CMD_VALID` and `CMD` are ignored (R95, R120). -/
def tick (extra : CmdWord → Nat) (p : Pins) (c : Clocked) : Clocked :=
  if p.rst then { core := c.core.resetCore, busy := none }
  else
    match c.busy with
    | some (w, n) => advance w n c.core
    | none => if p.cmdValid && c.cmdReady p.rst then advance p.cmd (extra p.cmd) c.core else c

/-- The clocked core after a list of pin samples, one a cycle. -/
def ticks (extra : CmdWord → Nat) : List Pins → Clocked → Clocked
  | [], c => c
  | p :: ps, c => ticks extra ps (tick extra p c)

/-- The clocked core of this instance, over its own `LATENCY` (R4). -/
def instanceTicks : List Pins → Clocked → Clocked := ticks Config.extraCycles

end Sys2Proof.Machine
end

