-- ==== Sys2Proof/Safety.lean ====
section
/-! DEFINITION. What counts as a run and as its end (70_reset_and_hazards.md R124), and the invariant that every step keeps
(10_state.md R15 to R20, R26; 60_exceptions.md R100), and the terms that claims about the opcode map, the key schedule and
the round use (30_encoding.md R47; 41_key_schedule.md R74; 42_round_function.md R91). -/

namespace Sys2Proof.Machine

/-- The state after a list of command words has been presented, one a step. -/
def runWords (ws : List CmdWord) (s : State) : Host.Outcome State Fault Refusal :=
  Host.Core.run Sys2Proof.core ws.length (s.withPins (ws.map present))

/-- The run of the command words from `s` ends successfully in `t`: every word has been accepted and completed, and the core
is not halted (R124). -/
def EndsSuccessfully (ws : List CmdWord) (s t : State) : Prop := runWords ws s = .next t ∧ t.halt = false

/-- The run of the command words from `s` ends halted in `t` (R124). -/
def EndsHalted (ws : List CmdWord) (s t : State) : Prop := runWords ws s = .next t ∧ t.halt = true

/-- The result of a run: the values of the output ports `K1_O`, `K2_O`, `BLK_O`, `STATUS_O` (R124). -/
def State.result (s : State) : BitVec 8 × BitVec 8 × BitVec 8 × BitVec 8 := (s.k1O, s.k2O, s.blkO, s.statusO)

/-- The status register is one that the spec allows: bit 7 reads 0, `ERR` is a code that the core writes, and the core is
halted exactly when `ERR` is not 0 (R15, R19, R20, R100). -/
def State.statusLegal (s : State) : Prop :=
  s.status.getLsbD 7 = false ∧ (s.halt = true ↔ s.err ≠ 0#3) ∧ (s.err ≠ 3#3 ∧ s.err ≠ 6#3 ∧ s.err ≠ 7#3)

/-- A register whose valid bit is 0 holds zeros (R16, R17, R18, R26). -/
def State.invalidAreZero (s : State) : Prop :=
  (s.keyv = false → s.key = 0#10) ∧ (s.rkv = false → s.k1 = 0#8 ∧ s.k2 = 0#8) ∧ (s.blkv = false → s.blk = 0#8)

/-- Valid round keys are those that the key schedule derives from the master key the core holds (R17). -/
def State.roundKeysDerived (s : State) : Prop :=
  s.rkv = true → s.keyv = true ∧ ks s.rom s.key = .ok (s.k1, s.k2)

/-- The invariant of the machine. -/
def State.Inv (s : State) : Prop := s.statusLegal ∧ s.invalidAreZero ∧ s.roundKeysDerived

/-- The status bits that are no part of a given list are the same in both states: the frame of a command on STATUS. -/
def SameStatusBut (bits : List Nat) (s t : State) : Prop :=
  ∀ n, n ∉ bits → t.status.getLsbD n = s.status.getLsbD n

/-- The (match, mask) pairs of the opcode map, from NOP to ENCRYPT (30_encoding.md R47). -/
def opcodeRows : List (CmdWord × CmdWord) :=
  [(0x0000#16, 0xFFFF#16), (0x1000#16, 0xFC00#16), (0x2000#16, 0xFF00#16), (0x3000#16, 0xFFFF#16), (0x4000#16, 0xFFFE#16),
   (0x5000#16, 0xFFFF#16)]

/-- The registers a faulting command leaves as they were (R109): all but the `HALT` and `ERR` fields, bits 3 to 6. -/
def SameButFault (s t : State) : Prop :=
  t.key = s.key ∧ t.k1 = s.k1 ∧ t.k2 = s.k2 ∧ t.blk = s.blk ∧ t.rom = s.rom ∧ SameStatusBut [3, 4, 5, 6] s t

/-- The state `t` is `s` after fault entry with the code `code` (R108). -/
def FaultedWith (code : BitVec 3) (s t : State) : Prop := t.err = code ∧ t.halt = true ∧ SameButFault s t ∧ t.pins = s.pins

/-- The 0-based position that entry `i` of a table selects (R7). -/
def selected {m : Nat} (t : Table m) (i : Nat) : Nat := ((t[i]?).getD 0#4).toNat - 1

/-- The position of `Left‖Right` that position `j` of the joined halves shows after each 5-bit half has been rotated left by
`r` places; a bit never crosses from one half to the other (R71, R72). -/
def rotatedSource (r j : Nat) : Nat := if j < 5 then (j + r) % 5 else 5 + (j - 5 + r) % 5

/-- The key position that position `i` of a round key copies, for the round key whose halves are rotated by `r` in all: 1 for
K1, 3 for K2 (R74). -/
def keySource (c : Cfg) (r i : Nat) : Nat := selected c.p10 (rotatedSource r (selected c.p8 i))

/-- `F(R, k) = PERM(SBOX-stage(XOR(PERM(R, EP), k)), P4)` (R91 (a)). -/
def roundF (c : Cfg) (r : DataHalf) (k : RoundKey) : Except FaultKind DataHalf := do
  let e ← perm r c.ep.entries
  let x ← xor e k
  let s0 ← sbox (sub x 0 4) c.sbox0
  let s1 ← sbox (sub x 4 4) c.sbox1
  perm (cat s0 s1) p4

/-- IP⁻¹ is the inverse permutation of IP: the condition under which R91's consequences hold. -/
def ipInverse (c : Cfg) : Bool := inverseTables c.ip c.ipinv

end Sys2Proof.Machine
end

