-- ==== Sys2Proof/Certificates/Slice0/Obligations.lean ====
section
/-! DEFINITION. The statements about the model. Each says which rule of spec/ it formalises; none is about a program. A
statement about a state is about every configuration, since State.rom holds it (notes/assumptions/1.md). -/

open Sys2Proof Sys2Proof.Machine

/-! ### Reset -/

/-- The reset state, its ports, and that resetting any state makes it while the tables stay (70_reset_and_hazards.md R116). -/
def Obligations.ResetStateIsAllZero : Prop :=
  (State.reset.key = 0#10 ∧ State.reset.k1 = 0#8 ∧ State.reset.k2 = 0#8 ∧ State.reset.blk = 0#8 ∧
    State.reset.status = 0x00#8 ∧ State.reset.keyv = false ∧ State.reset.rkv = false ∧ State.reset.blkv = false ∧
    State.reset.halt = false ∧ State.reset.err = 0#3 ∧ State.reset.rom = Config.cfg) ∧
  (State.reset.k1O = 0#8 ∧ State.reset.k2O = 0#8 ∧ State.reset.blkO = 0#8 ∧ State.reset.statusO = 0#8 ∧
    State.reset.faultO = false ∧ State.reset.cmdReady false = true) ∧
  ∀ s : State, s.resetCore.rom = s.rom ∧ s.resetCore.key = 0#10 ∧ s.resetCore.k1 = 0#8 ∧ s.resetCore.k2 = 0#8 ∧
    s.resetCore.blk = 0#8 ∧ s.resetCore.status = 0x00#8

/-- With RST asserted, a step from any state, halted or not, whatever the command pins say, gives the reset state; no command
is accepted meanwhile (70_reset_and_hazards.md R115). That a step reads one sample of the pins is the model's
(notes/assumptions/2.md). -/
def Obligations.RstResetsFromEveryState : Prop :=
  ∀ (s : State) (p : Pins) (ps : List Pins), s.pins = p :: ps → p.rst = true →
    s.accepts p = false ∧ s.cmdReady p.rst = false ∧
    ∃ t, step s = .next t ∧ t.key = 0#10 ∧ t.k1 = 0#8 ∧ t.k2 = 0#8 ∧ t.blk = 0#8 ∧ t.status = 0#8 ∧ t.rom = s.rom ∧ t.pins = ps

/-! ### Decoding -/

/-- Each row of the opcode map by its match and mask, over all 65536 words, and no word matches two rows (30_encoding.md R47);
the operands are LDKEY's ten bits, LDBLK's eight and ROUND's one. -/
def Obligations.WordsDecodeByMatchAndMask : Prop :=
  ∀ w : CmdWord,
    (w &&& 0xFFFF#16 = 0x0000#16 ↔ decode w = .ok .nop) ∧
    (w &&& 0xFC00#16 = 0x1000#16 ↔ decode w = .ok (.ldkey (busField w 0 10))) ∧
    (w &&& 0xFF00#16 = 0x2000#16 ↔ decode w = .ok (.ldblk (busField w 0 8))) ∧
    (w &&& 0xFFFF#16 = 0x3000#16 ↔ decode w = .ok .keygen) ∧
    (w &&& 0xFFFE#16 = 0x4000#16 ↔ decode w = .ok (.round (if w.getLsbD 0 then .k2 else .k1))) ∧
    (w &&& 0xFFFF#16 = 0x5000#16 ↔ decode w = .ok .encrypt) ∧
    ∀ a ∈ opcodeRows, ∀ b ∈ opcodeRows, w &&& a.2 = a.1 → w &&& b.2 = b.1 → a = b

/-- The reserved words are exactly the classes (a) to (e), 1285 words are legal and 64251 reserved (30_encoding.md R48); an
accepted reserved word raises `IllegalCommand` in every state that is not halted, whatever its valid bits (60_exceptions.md
R104). -/
def Obligations.ReservedWordsAreTheFiveClasses : Prop :=
  (∀ w : CmdWord, (∃ e, decode w = .error e) ↔
    (6 ≤ (busField w 12 4).toNat ∨ busField w 10 2 ≠ 0#2 ∨
      (busField w 12 4 ∈ [0x0#4, 0x3#4, 0x5#4] ∧ busField w 0 10 ≠ 0#10) ∨
      (busField w 12 4 = 0x2#4 ∧ busField w 8 2 ≠ 0#2) ∨ (busField w 12 4 = 0x4#4 ∧ busField w 1 9 ≠ 0#9))) ∧
  (Nat.card { w : CmdWord // ∃ i, decode w = .ok i } = 1285 ∧
    Nat.card { w : CmdWord // ∃ e, decode w = .error e } = 64251) ∧
  ∀ (s : State) (w : CmdWord) (e : Reserved), s.halt = false → decode w = .error e →
    ∃ t, runWord w s = .next t ∧ FaultedWith 4#3 s t

/-- Decode and encode agree on every command: no bit of an operand is dropped (30_encoding.md R44 to R47, R53). -/
def Obligations.EncodedCommandsDecodeBack : Prop := ∀ i : Instr, decode (encode i) = .ok i

/-- A legal word is the encoding of the command it decodes to: no two words are one command (30_encoding.md R47, R48, R53). -/
def Obligations.DecodedWordsEncodeBack : Prop := ∀ (w : CmdWord) (i : Instr), decode w = .ok i → encode i = w

/-- Words of each family decode to what the spec lists for them (95_test_vectors.md V8). -/
def Obligations.ListedWordsDecode : Prop :=
  decode 0x0000#16 = .ok .nop ∧ decode 0x1282#16 = .ok (.ldkey 0b1010000010#10) ∧
  decode 0x1200#16 = .ok (.ldkey 0b1000000000#10) ∧ decode 0x20A5#16 = .ok (.ldblk 0b10100101#8) ∧
  decode 0x3000#16 = .ok .keygen ∧ decode 0x4000#16 = .ok (.round .k1) ∧ decode 0x4001#16 = .ok (.round .k2) ∧
  decode 0x5000#16 = .ok .encrypt ∧ decode 0x6000#16 = .error .opcode ∧ decode 0x1682#16 = .error .rsvNotZero ∧
  decode 0x4002#16 = .error .unusedArg

/-- LDKEY's operand: `k[i] = ARG[9-i]`, for each of the 1024 keys (30_encoding.md R44). -/
def Obligations.LdkeyOperandIsArgFromItsTop : Prop :=
  (∀ w : CmdWord, busField w 12 4 = 0x1#4 → busField w 10 2 = 0#2 →
    ∃ k, decode w = .ok (.ldkey k) ∧ ∀ i < 10, pos k i = (busField w 0 10).getLsbD (9 - i)) ∧
  decode 0x1282#16 = .ok (.ldkey 0b1010000010#10)

/-- LDBLK's operand: `b[i] = ARG[7-i]` and `ARG[9:8]` must be 0 (30_encoding.md R45). -/
def Obligations.LdblkOperandIsArgFromBitSeven : Prop :=
  (∀ w : CmdWord, busField w 12 4 = 0x2#4 → busField w 10 2 = 0#2 →
    (busField w 8 2 = 0#2 → ∃ b, decode w = .ok (.ldblk b) ∧ ∀ i < 8, pos b i = w.getLsbD (7 - i)) ∧
    (busField w 8 2 ≠ 0#2 → ∃ e, decode w = .error e)) ∧
  decode 0x20A5#16 = .ok (.ldblk 0b10100101#8)

/-- ROUND's operand: `KS = ARG[0]` selects K1 or K2, and `ARG[9:1]` must be 0 (30_encoding.md R46). -/
def Obligations.RoundOperandSelectsTheKey : Prop :=
  (∀ w : CmdWord, busField w 12 4 = 0x4#4 → busField w 10 2 = 0#2 →
    (busField w 1 9 = 0#9 → ∃ sel, decode w = .ok (.round sel) ∧
      ∀ s : State, s.roundKey sel = if w.getLsbD 0 then s.k2 else s.k1) ∧
    (busField w 1 9 ≠ 0#9 → ∃ e, decode w = .error e))

/-! ### The step -/

/-- When the pins present a word that decodes to `i` to a core that is not halted, the step is `exec i`; when they present a
reserved word, the step is fault entry with `IllegalCommand`; around it the step only uses up the pin sample
(43_host_commands.md R95). The list of pin samples is the model's (notes/assumptions/2.md). -/
def Obligations.StepRunsDecodedCommand : Prop :=
  ∀ (s : State) (p : Pins) (ps : List Pins), s.pins = p :: ps → p.rst = false → p.cmdValid = true → s.halt = false →
    (∀ i : Instr, decode p.cmd = .ok i → step s = exec i (s.withPins ps)) ∧
    ∀ e : Reserved, decode p.cmd = .error e → step s = .next ((s.withPins ps).faultEntry .illegalCommand)

/-- A halted core: `CMD_READY = 0`; whatever the host presents without RST, for any number of steps, nothing changes; RST
alone leads out, and zeroes the registers (60_exceptions.md R110; notes/assumptions/5.md). -/
def Obligations.HaltIsTerminalUntilReset : Prop :=
  ∀ s : State, s.halt = true →
    (∀ rst, s.cmdReady rst = false) ∧
    (∀ ps : List Pins, (∀ p ∈ ps, p.rst = false) →
      Host.Core.run Sys2Proof.core ps.length (s.withPins ps) = .next (s.withPins [])) ∧
    (∀ (p : Pins) (ps : List Pins), p.rst = true → ∃ t, step (s.withPins (p :: ps)) = .next t ∧ t.halt = false ∧
      t.key = 0#10 ∧ t.k1 = 0#8 ∧ t.k2 = 0#8 ∧ t.blk = 0#8)

/-- Without RST and without a command word the core waits: nothing changes (60_exceptions.md R114; 70_reset_and_hazards.md
R120). That a step with no input at all leaves the state is the model's choice (notes/assumptions/2.md). -/
def Obligations.IdleCoreWaits : Prop :=
  ∀ s : State, (s.pins = [] → step s = .next s) ∧
    ∀ (p : Pins) (ps : List Pins), s.pins = p :: ps → p.rst = false → p.cmdValid = false → step s = .next (s.withPins ps)

/-- Every step from every state answers a next state: no fault stops the model, and every accepted command completes. Of this
the spec says that every accepted command completes (70_reset_and_hazards.md R123) and which state a fault leaves
(60_exceptions.md R108). The rest is the model's choice: that a faulting command answers that state as a next state
(notes/assumptions/6.md), that a step with no input leaves the state (notes/assumptions/2.md), and that exec, which no step
runs in a halted state, answers there too (notes/assumptions/12.md). -/
def Obligations.EveryStepAnswersANextState : Prop :=
  (∀ s : State, ∃ t, step s = .next t) ∧ ∀ (i : Instr) (s : State), ∃ t, exec i s = .next t

/-- The state after a step depends on the registers only as far as the access matrix says: each command leaves untouched what
its row marks so, whether it completes or faults (10_state.md R28). -/
def Obligations.AccessMatrixIsKept : Prop :=
  ∀ (i : Instr) (s t : State), exec i s = .next t →
    ((∀ k, i ≠ .ldkey k) → t.key = s.key ∧ t.keyv = s.keyv) ∧
    ((∀ k, i ≠ .ldkey k) → i ≠ .keygen → t.k1 = s.k1 ∧ t.k2 = s.k2 ∧ t.rkv = s.rkv) ∧
    ((∀ b, i ≠ .ldblk b) → t.blkv = s.blkv) ∧
    ((∀ b, i ≠ .ldblk b) → (∀ k, i ≠ .round k) → i ≠ .encrypt → t.blk = s.blk) ∧
    t.rom = s.rom ∧ t.pins = s.pins ∧ t.status.getLsbD 7 = s.status.getLsbD 7

/-! ### Faults -/

/-- Fault entry writes `ERR` and `HALT` and nothing else; `FAULT_O` becomes 1, and `CMD_READY` 0, and it stays so at a next
step without RST (60_exceptions.md R108). -/
def Obligations.FaultEntryWritesErrAndHaltOnly : Prop :=
  ∀ (s : State) (c : FaultKind),
    (s.faultEntry c).err = c.code ∧ (s.faultEntry c).halt = true ∧ (s.faultEntry c).keyv = s.keyv ∧
    (s.faultEntry c).rkv = s.rkv ∧ (s.faultEntry c).blkv = s.blkv ∧ SameButFault s (s.faultEntry c) ∧
    (s.faultEntry c).faultO = true ∧ (∀ rst, (s.faultEntry c).cmdReady rst = false) ∧
    ∀ t, (∀ p ∈ s.pins.head?, p.rst = false) → step (s.faultEntry c) = .next t →
      t.faultO = true ∧ ∀ rst, t.cmdReady rst = false

/-- The codes of the fault kinds, as STATUS_O shows them after a fault that finds all three valid bits set (60_exceptions.md
R100; 95_test_vectors.md V9). -/
def Obligations.FaultCodesAreAsListed : Prop :=
  (FaultKind.invalidTableIndex.code = 1#3 ∧ FaultKind.lengthMismatch.code = 2#3 ∧ FaultKind.malformedBitInput.code = 3#3 ∧
    FaultKind.illegalCommand.code = 4#3 ∧ FaultKind.operandNotReady.code = 5#3) ∧
  ∀ s : State, s.status = 0x07#8 → (s.faultEntry .invalidTableIndex).statusO = 0x1F#8 ∧
    (s.faultEntry .lengthMismatch).statusO = 0x2F#8 ∧ (s.faultEntry .illegalCommand).statusO = 0x4F#8

/-- A step from a core that is not halted into the halt has written `HALT` and `ERR` and no other register: faults are
all-or-nothing (60_exceptions.md R109). -/
def Obligations.FaultingStepWritesNothingElse : Prop :=
  ∀ s t : State, s.halt = false → step s = .next t → t.halt = true →
    SameButFault s t ∧ t.err ∈ [1#3, 2#3, 4#3, 5#3]

/-- The order of the checks: a reserved word before the valid bits, the valid bits before the tables, P10 and P8 in KEYGEN,
then IP, EP's entries, EP's length and IP⁻¹ in ROUND and ENCRYPT (60_exceptions.md R105, R107; 42_round_function.md R86). -/
def Obligations.FirstFaultIsReported : Prop :=
  ∀ s : State,
    (∀ (w : CmdWord) (e : Reserved), s.halt = false → decode w = .error e → ∃ t, runWord w s = .next t ∧ FaultedWith 4#3 s t) ∧
    (s.keyv = false → ∃ t, exec .keygen s = .next t ∧ FaultedWith 5#3 s t) ∧
    (s.keyv = true → s.rom.keyScheduleOk = false → ∃ t, exec .keygen s = .next t ∧ FaultedWith 1#3 s t) ∧
    ∀ i : Instr, (i = .round .k1 ∨ i = .round .k2 ∨ i = .encrypt) →
      ∃ t, exec i s = .next t ∧
        if s.rkv = false ∨ s.blkv = false then FaultedWith 5#3 s t
        else if entriesWithin 8 s.rom.ip = false then FaultedWith 1#3 s t
        else if entriesWithin 4 s.rom.ep.entries = false then FaultedWith 1#3 s t
        else if s.rom.ep.len.val ≠ 8 then FaultedWith 2#3 s t
        else if entriesWithin 8 s.rom.ipinv = false then FaultedWith 1#3 s t
        else t.status = s.status

/-- What whoever instantiates the core must choose, and no more: the tables are as required exactly when no key schedule and no
round faults (70_reset_and_hazards.md R119). -/
def Obligations.ConfigurationDutiesAreExact : Prop :=
  ∀ c : Cfg, c.ok = true ↔ (∀ key, ∃ r, ks c key = .ok r) ∧ ∀ b k, ∃ r, rf c b k = .ok r

/-! ### The units -/

/-- PERM: `result[i] = input[table[i] - 1]`, and `InvalidTableIndex` where an entry is no position of the input
(40_primitives.md R55). -/
def Obligations.PermSelectsByTable : Prop :=
  (∀ (n m : Nat) (v : BitVec n) (t : Table m),
    ((∀ i (h : i < m), 1 ≤ (t[i]).toNat ∧ (t[i]).toNat ≤ n) →
      ∃ r, perm v t = .ok r ∧ ∀ i (h : i < m), pos r i = pos v ((t[i]).toNat - 1)) ∧
    ((∃ i, ∃ h : i < m, (t[i]).toNat < 1 ∨ n < (t[i]).toNat) → perm v t = .error .invalidTableIndex)) ∧
  perm 0b0001#4 (#v[2, 4, 3, 1] : Table 4) = .ok 0b0100#4

/-- PERM raises `InvalidTableIndex` exactly when some entry is 0 or exceeds the input's length, whatever the input's bits, and
never for the empty table (40_primitives.md R56). -/
def Obligations.PermRejectsBadIndices : Prop :=
  (∀ (n m : Nat) (v : BitVec n) (t : Table m),
    (perm v t = .error .invalidTableIndex ↔ ∃ i, ∃ h : i < m, (t[i]).toNat = 0 ∨ n < (t[i]).toNat)) ∧
  ∀ (n : Nat) (v : BitVec n) (t : Table 0), perm v t = .ok 0#0

/-- The round-trip law: PERM by a true permutation, then by its inverse table, gives the vector back (40_primitives.md R57). -/
def Obligations.InverseTableUndoesPerm : Prop :=
  ∀ (n : Nat) (t1 t2 : Table n), inverseTables t1 t2 = true →
    ∀ v : BitVec n, ∃ u : BitVec n, perm v t1 = .ok u ∧ perm u t2 = .ok v

/-- ROTL: `result[i] = input[(i + shift) mod len(input)]` (40_primitives.md R59). -/
def Obligations.RotlMovesPositions : Prop :=
  (∀ (n : Nat) (v : BitVec n) (s i : Nat), i < n → pos (rotl v s) i = pos v ((i + s) % n)) ∧
  rotl 0b10000#5 1 = 0b00001#5 ∧ rotl 0b00001#5 2 = 0b00100#5

/-- ROTL's law and corner cases: rotations compose additively, the shift counts modulo the length, 0 and the length itself
change nothing (40_primitives.md R60). -/
def Obligations.RotationsComposeAdditively : Prop :=
  ∀ (n : Nat) (v : BitVec n), (∀ a b, rotl (rotl v a) b = rotl v (a + b)) ∧ (∀ s, rotl v s = rotl v (s % n)) ∧
    rotl v 0 = v ∧ rotl v n = v

/-- XOR: elementwise on equal lengths (40_primitives.md R61), `LengthMismatch` otherwise (R62). -/
def Obligations.XorIsElementwiseOnEqualLengths : Prop :=
  (∀ (n : Nat) (a b : BitVec n), ∃ r, xor a b = .ok r ∧ ∀ i < n, pos r i = (pos a i ^^ pos b i)) ∧
  (∀ (n m : Nat) (a : BitVec n) (b : BitVec m), n ≠ m → xor a b = .error .lengthMismatch) ∧
  xor 0b00101000#8 0b10100100#8 = .ok 0b10001100#8

/-- XOR's laws on equal lengths: involution, symmetry, `a ^ a` is zero, zero is neutral (40_primitives.md R63). -/
def Obligations.XorLaws : Prop :=
  ∀ (n : Nat) (a b : BitVec n), ∃ r, xor a b = .ok r ∧ xor a r = .ok b ∧ xor b a = .ok r ∧
    xor a a = .ok (0#n) ∧ xor a (0#n) = .ok a

/-- SBOX: the row from the outer two bits, the column from the inner two, the entry's two bits high bit first; another length
is refused (40_primitives.md R64, R65, R66). -/
def Obligations.SboxReadsRowAndColumn : Prop :=
  (∀ (v : BitVec 4) (a : SBoxArray), ∃ (o : BitVec 2) (row col : Fin 4),
    row.val = 2 * (pos v 0).toNat + (pos v 3).toNat ∧ col.val = 2 * (pos v 1).toNat + (pos v 2).toNat ∧
    sbox v a = .ok o ∧ (pos o 0).toNat = ((a[row])[col]).toNat / 2 ∧ (pos o 1).toNat = ((a[row])[col]).toNat % 2) ∧
  ∀ (n : Nat) (v : BitVec n) (a : SBoxArray), n ≠ 4 → sbox v a = .error .lengthMismatch

/-! ### The key schedule and KEYGEN -/

/-- KS faults by the tables alone: exactly when an entry of P10 or of P8 is outside 1..10, always with `InvalidTableIndex`,
whatever the key (41_key_schedule.md R73). -/
def Obligations.KeyScheduleFaultsByTablesAlone : Prop :=
  ∀ (c : Cfg) (key : MasterKey),
    (entriesWithin 10 c.p10 = false ∨ entriesWithin 10 c.p8 = false → ks c key = .error .invalidTableIndex) ∧
    (entriesWithin 10 c.p10 = true → entriesWithin 10 c.p8 = true → ∃ k1 k2, ks c key = .ok (k1, k2))

/-- The two-stage rotation: the LS-2 halves come from the LS-1 halves by 2, and equal the P10 halves rotated by 3
(41_key_schedule.md R71, R72). -/
def Obligations.KeyHalvesRotateInTwoStages : Prop :=
  ∀ (c : Cfg) (key : MasterKey) (t : KsTrace), ksTrace c key = .ok t →
    cat t.kl0 t.kr0 = t.p ∧ t.kl1 = rotl t.kl0 1 ∧ t.kr1 = rotl t.kr0 1 ∧ t.kl2 = rotl t.kl1 2 ∧ t.kr2 = rotl t.kr1 2 ∧
    t.kl2 = rotl t.kl0 3 ∧ t.kr2 = rotl t.kr0 3

/-- KEYGEN completes when a master key is loaded and the tables are legal, and each bit of K1 and K2 is the copy of the key bit
that the tables and the rotations name; RKV becomes 1 and nothing else changes (41_key_schedule.md R70, R74, R75). -/
def Obligations.KeygenCopiesKeyBits : Prop :=
  ∀ s : State, s.keyv = true → s.rom.keyScheduleOk = true →
    ∃ t, exec .keygen s = .next t ∧ (∀ i < 8, pos t.k1 i = pos s.key (keySource s.rom 1 i)) ∧
      (∀ i < 8, pos t.k2 i = pos s.key (keySource s.rom 3 i)) ∧ t.rkv = true ∧ SameStatusBut [1] s t ∧
      t.key = s.key ∧ t.blk = s.blk ∧ t.rom = s.rom ∧ t.pins = s.pins

/-- KEYGEN, the word 0x3000 (41_key_schedule.md R75): the valid bit first, then KS, then both round keys and RKV; on a fault they keep their
values; repeated, it writes the same round keys again. -/
def Obligations.KeygenFollowsItsRule : Prop :=
  encode .keygen = 0x3000#16 ∧ ∀ s : State,
    (s.keyv = false → ∃ t, exec .keygen s = .next t ∧ FaultedWith 5#3 s t) ∧
    (∀ c, s.keyv = true → ks s.rom s.key = .error c → ∃ t, exec .keygen s = .next t ∧ FaultedWith c.code s t) ∧
    (∀ k1 k2, s.keyv = true → ks s.rom s.key = .ok (k1, k2) →
      ∃ t, exec .keygen s = .next t ∧ t.k1 = k1 ∧ t.k2 = k2 ∧ t.rkv = true ∧ SameStatusBut [1] s t ∧
        t.key = s.key ∧ t.blk = s.blk ∧ t.rom = s.rom ∧ t.pins = s.pins ∧ exec .keygen t = .next t)

/-! ### The round function, ROUND and ENCRYPT -/

/-- RF step by step, position by position: IP, the split, EP, the key mixer, the S-boxes, P4 = {2,4,3,1}, the left-half mixer,
and IP⁻¹ on the unswapped halves (42_round_function.md R80 to R89); P4 never faults (R87). -/
def Obligations.RoundFollowsItsSteps : Prop :=
  (∀ u : BitVec 4, ∃ q : BitVec 4, perm u p4 = .ok q) ∧
  ∀ (c : Cfg) (b : Block) (k : RoundKey), c.roundOk = true →
    ∃ t : RfTrace c.ep.len.val, rfTrace c b k = .ok t ∧ rf c b k = .ok t.out ∧
      (∀ i < 8, pos t.p i = pos b (selected c.ip i)) ∧
      (∀ i < 4, pos t.l i = pos t.p i ∧ pos t.r i = pos t.p (4 + i)) ∧
      (∀ i < 8, pos t.e i = pos t.r (selected c.ep.entries i)) ∧
      (∀ i < 8, pos t.x i = (pos t.e i ^^ pos k i)) ∧
      (sbox (sub t.x 0 4) c.sbox0 = .ok t.s0 ∧ sbox (sub t.x 4 4) c.sbox1 = .ok t.s1 ∧ t.s = cat t.s0 t.s1) ∧
      (pos t.q 0 = pos t.s 1 ∧ pos t.q 1 = pos t.s 3 ∧ pos t.q 2 = pos t.s 2 ∧ pos t.q 3 = pos t.s 0) ∧
      (∀ i < 4, pos t.l' i = (pos t.q i ^^ pos t.l i)) ∧
      (∀ i < 8, pos t.out i = if selected c.ipinv i < 4 then pos t.l' (selected c.ipinv i) else pos t.r (selected c.ipinv i - 4))

/-- RF's faults and their order: IP, then EP's entries, then EP's length, then IP⁻¹; all by the tables alone
(42_round_function.md R92). -/
def Obligations.RoundFaultsInStepOrder : Prop :=
  ∀ (c : Cfg) (b : Block) (k : RoundKey),
    if entriesWithin 8 c.ip = false then rf c b k = .error .invalidTableIndex
    else if entriesWithin 4 c.ep.entries = false then rf c b k = .error .invalidTableIndex
    else if c.ep.len.val ≠ 8 then rf c b k = .error .lengthMismatch
    else if entriesWithin 8 c.ipinv = false then rf c b k = .error .invalidTableIndex
    else ∃ r, rf c b k = .ok r

/-- ENC2 is RF with k1, then RF with k2 on its output; a fault of the first ends it with the same code, and when the first does
not fault the second cannot (42_round_function.md R90). -/
def Obligations.TwoRoundsCompose : Prop :=
  ∀ (c : Cfg) (b : Block) (k1 k2 : RoundKey),
    (∀ f, rf c b k1 = .error f → enc2 c b k1 k2 = .error f) ∧
    (∀ b1, rf c b k1 = .ok b1 → ∃ b2, rf c b1 k2 = .ok b2 ∧ enc2 c b k1 k2 = .ok b2)

/-- ROUND, the words 0x4000 and 0x4001 (42_round_function.md R93): the valid bits first, then RF on the old BLK with the
selected round key; BLK alone is written, and on a fault it keeps its value; the same ROUND twice in a row restores BLK when
IP and IP⁻¹ are inverse. -/
def Obligations.RoundFollowsItsRule : Prop :=
  (encode (.round .k1) = 0x4000#16 ∧ encode (.round .k2) = 0x4001#16) ∧
  ∀ (s : State) (sel : KeySel), s.roundKey sel = (if encode (.round sel) = 0x4000#16 then s.k1 else s.k2) ∧
    (s.rkv = false ∨ s.blkv = false → ∃ t, exec (.round sel) s = .next t ∧ FaultedWith 5#3 s t) ∧
    (∀ f, s.rkv = true → s.blkv = true → rf s.rom s.blk (s.roundKey sel) = .error f →
      ∃ t, exec (.round sel) s = .next t ∧ FaultedWith f.code s t) ∧
    (∀ b, s.rkv = true → s.blkv = true → rf s.rom s.blk (s.roundKey sel) = .ok b →
      exec (.round sel) s = .next { s with blk := b }) ∧
    (s.rkv = true → s.blkv = true → s.rom.roundOk = true → ipInverse s.rom = true →
      ∃ t, exec (.round sel) s = .next t ∧ exec (.round sel) t = .next s)

/-- ENCRYPT, the word 0x5000 (42_round_function.md R94): the valid bits first, then two rounds; BLK alone is written, and on a fault it keeps the
value it had before the command; without a fault the end is that of ROUND K1 then ROUND K2. -/
def Obligations.EncryptFollowsItsRule : Prop :=
  encode .encrypt = 0x5000#16 ∧ ∀ s : State,
    (s.rkv = false ∨ s.blkv = false → ∃ t, exec .encrypt s = .next t ∧ FaultedWith 5#3 s t) ∧
    (∀ f, s.rkv = true → s.blkv = true → enc2 s.rom s.blk s.k1 s.k2 = .error f →
      ∃ t, exec .encrypt s = .next t ∧ FaultedWith f.code s t) ∧
    (∀ b, s.rkv = true → s.blkv = true → enc2 s.rom s.blk s.k1 s.k2 = .ok b →
      exec .encrypt s = .next { s with blk := b } ∧
      ∃ u, exec (.round .k1) s = .next u ∧ exec (.round .k2) u = .next { s with blk := b })

/-- ROUND and ENCRYPT complete, on every block and round keys, when the round keys and the block are valid and the tables are as
required; only BLK changes, and the tables and the registers they read are untouched (42_round_function.md R93, R94;
70_reset_and_hazards.md R119). -/
def Obligations.RoundsCompleteWhenReady : Prop :=
  ∀ s : State, s.rkv = true → s.blkv = true → s.rom.roundOk = true →
    (∀ sel, ∃ b, rf s.rom s.blk (s.roundKey sel) = .ok b ∧ exec (.round sel) s = .next { s with blk := b }) ∧
    ∃ b1 b2, rf s.rom s.blk s.k1 = .ok b1 ∧ rf s.rom b1 s.k2 = .ok b2 ∧ exec .encrypt s = .next { s with blk := b2 }

/-- One round is its own inverse when IP⁻¹ inverts IP: `RF(RF(b, k), k) = b` (42_round_function.md R91 (b)). -/
def Obligations.RoundFunctionIsItsOwnInverse : Prop :=
  ∀ (c : Cfg) (b : Block) (k : RoundKey), c.roundOk = true → ipInverse c = true →
    ∃ b1, rf c b k = .ok b1 ∧ rf c b1 k = .ok b

/-- Encrypting twice returns the plaintext when IP⁻¹ inverts IP (42_round_function.md R91 (c)). -/
def Obligations.EncryptTwiceReturnsThePlaintext : Prop :=
  ∀ s : State, s.rkv = true → s.blkv = true → s.rom.roundOk = true → ipInverse s.rom = true →
    ∃ t, exec .encrypt s = .next t ∧ exec .encrypt t = .next s

/-- No swap: when IP⁻¹ inverts IP, the Right half of the IP-permuted block is never altered, and Left becomes
`L ^ F(R, K1) ^ F(R, K2)` (42_round_function.md R91 (a)). -/
def Obligations.EncryptAltersLeftHalfOnly : Prop :=
  ∀ (c : Cfg) (b : Block) (k1 k2 : RoundKey), c.roundOk = true → ipInverse c = true →
    ∃ (b2 : Block) (p p2 : BitVec 8) (f1 f2 : DataHalf), enc2 c b k1 k2 = .ok b2 ∧ perm b c.ip = .ok p ∧
      perm b2 c.ip = .ok p2 ∧ roundF c (sub p 4 4) k1 = .ok f1 ∧ roundF c (sub p 4 4) k2 = .ok f2 ∧
      (sub p2 4 4 : DataHalf) = sub p 4 4 ∧ (sub p2 0 4 : DataHalf) = sub p 0 4 ^^^ f1 ^^^ f2

/-! ### NOP, LDKEY, LDBLK -/

/-- NOP, the word 0x0000 alone (43_host_commands.md R96): it completes in every state and changes no register, no flag and no
port; a halted core does not accept it, and it clears no fault; any other word with `OP = 0` is reserved. That presenting it
uses up one pin sample is the model's choice (notes/assumptions/2.md), in a halted core too (notes/assumptions/5.md); that
exec answers in a halted state is also the model's (notes/assumptions/12.md). -/
def Obligations.NopChangesNothing : Prop :=
  (∀ w : CmdWord, busField w 12 4 = 0x0#4 → (decode w = .ok .nop ↔ w = 0x0000#16) ∧ ((∃ e, decode w = .error e) ↔ w ≠ 0x0000#16)) ∧
  ∀ s : State, exec .nop s = .next s ∧
    ∀ (p : Pins) (ps : List Pins), s.pins = p :: ps → p.rst = false → p.cmd = 0x0000#16 →
      step s = .next (s.withPins ps) ∧ (s.halt = true → s.accepts p = false)

/-- LDKEY, the word 0x1000 with the key in ARG (43_host_commands.md R97): KEY is written, K1 and K2 are zeroed, KEYV is set and RKV cleared, and nothing else
changes; it completes for every key and in every state. -/
def Obligations.LdkeyLoadsAndInvalidates : Prop :=
  (∀ k : MasterKey, encode (.ldkey k) = 0x1000#16 ||| k.setWidth 16) ∧
  ∀ (s : State) (k : MasterKey), ∃ t, exec (.ldkey k) s = .next t ∧ t.key = k ∧ t.k1 = 0#8 ∧ t.k2 = 0#8 ∧ t.keyv = true ∧
    t.rkv = false ∧ SameStatusBut [0, 1] s t ∧ t.blk = s.blk ∧ t.blkv = s.blkv ∧ t.rom = s.rom ∧ t.pins = s.pins

/-- LDBLK, the word 0x2000 with the block in ARG (43_host_commands.md R98): BLK is written, BLKV is set, and nothing else changes; it completes for every block and in
every state. -/
def Obligations.LdblkLoadsTheBlock : Prop :=
  (∀ b : Block, encode (.ldblk b) = 0x2000#16 ||| b.setWidth 16) ∧
  ∀ (s : State) (b : Block), ∃ t, exec (.ldblk b) s = .next t ∧ t.blk = b ∧ t.blkv = true ∧ SameStatusBut [2] s t ∧
    t.key = s.key ∧ t.k1 = s.k1 ∧ t.k2 = s.k2 ∧ t.keyv = s.keyv ∧ t.rkv = s.rkv ∧ t.rom = s.rom ∧ t.pins = s.pins

/-! ### Whole-machine rules -/

/-- The invariant holds at reset (10_state.md R26). -/
def Obligations.ResetMeetsTheRegisterInvariant : Prop := State.reset.Inv

/-- Every step from every state that meets the invariant gives one that does: STATUS stays legal, registers whose valid bit is
0 hold zeros, and valid round keys are those of the master key held (10_state.md R15 to R20). -/
def Obligations.EveryStepKeepsTheRegisterInvariant : Prop := ∀ s t : State, s.Inv → step s = .next t → t.Inv

/-- The table ROMs and S-box arrays are never written: not by a command, not by a fault, not by reset (10_state.md R22, R23;
20_memory.md R33). -/
def Obligations.TablesAreNeverWritten : Prop := ∀ s t : State, step s = .next t → t.rom = s.rom

/-- KEY changes only by an accepted LDKEY, to its operand, and by reset (10_state.md R11). -/
def Obligations.OnlyLdkeyAndResetWriteTheKey : Prop :=
  ∀ s t : State, step s = .next t → t.key ≠ s.key →
    ∃ p ps, s.pins = p :: ps ∧ (p.rst = true ∧ t.key = 0#10 ∨ s.accepts p = true ∧ decode p.cmd = .ok (.ldkey t.key))

/-- K1 and K2 change only by an accepted KEYGEN, to KS of the master key, or to zero, by an accepted LDKEY or by reset
(10_state.md R12). -/
def Obligations.OnlyKeygenMakesRoundKeys : Prop :=
  ∀ s t : State, step s = .next t → (t.k1, t.k2) ≠ (s.k1, s.k2) →
    ∃ p ps, s.pins = p :: ps ∧
      (p.rst = true ∧ t.k1 = 0#8 ∧ t.k2 = 0#8 ∨
       s.accepts p = true ∧ (∃ k, decode p.cmd = .ok (.ldkey k)) ∧ t.k1 = 0#8 ∧ t.k2 = 0#8 ∨
       s.accepts p = true ∧ decode p.cmd = .ok .keygen ∧ ks s.rom s.key = .ok (t.k1, t.k2))

/-- BLK changes only by an accepted LDBLK, ROUND or ENCRYPT that completes, and by reset (10_state.md R13). -/
def Obligations.OnlyBlockCommandsWriteTheBlock : Prop :=
  ∀ s t : State, step s = .next t → t.blk ≠ s.blk →
    ∃ p ps, s.pins = p :: ps ∧
      (p.rst = true ∧ t.blk = 0#8 ∨
       s.accepts p = true ∧
        (decode p.cmd = .ok (.ldblk t.blk) ∨
         (∃ sel, decode p.cmd = .ok (.round sel) ∧ rf s.rom s.blk (s.roundKey sel) = .ok t.blk) ∨
         decode p.cmd = .ok .encrypt ∧ enc2 s.rom s.blk s.k1 s.k2 = .ok t.blk))

/-- KEYV and BLKV, once 1, are cleared by reset alone (10_state.md R16, R18), and RKV by an accepted LDKEY or by reset (R17);
each is 1 after a step only if it was, or by its own command. -/
def Obligations.ValidBitsChangeByTheirCommands : Prop :=
  ∀ (s t : State) (p : Pins) (ps : List Pins), s.pins = p :: ps → p.rst = false → step s = .next t →
    (s.keyv = true → t.keyv = true) ∧ (s.blkv = true → t.blkv = true) ∧
    (s.rkv = true → t.rkv = true ∨ ∃ k, decode p.cmd = .ok (.ldkey k)) ∧
    (t.keyv = true → s.keyv = true ∨ ∃ k, decode p.cmd = .ok (.ldkey k)) ∧
    (t.blkv = true → s.blkv = true ∨ ∃ b, decode p.cmd = .ok (.ldblk b)) ∧
    (t.rkv = true → s.rkv = true ∨ decode p.cmd = .ok .keygen)

/-- `ERR` is sticky: once it holds a code, no step without RST changes it, in any state whose STATUS is legal
(10_state.md R20; 60_exceptions.md R111). -/
def Obligations.ErrIsWrittenAtMostOnceBetweenResets : Prop :=
  ∀ s t : State, s.statusLegal → s.err ≠ 0#3 → step s = .next t → (∀ p ps, s.pins = p :: ps → p.rst = false) →
    t.err = s.err ∧ t.halt = true

/-- KEY cannot be observed: two states that differ in KEY alone show the same ports, and still do after any command but KEYGEN,
the one command that reads KEY (10_state.md R11; 20_memory.md R35). -/
def Obligations.KeyIsNotObservable : Prop :=
  ∀ (i : Instr) (s t : State) (k : MasterKey), i ≠ .keygen → exec i s = .next t →
    ∃ t', exec i (s.setKey k) = .next t' ∧ t'.result = t.result ∧ t'.faultO = t.faultO ∧ ∀ rst, t'.cmdReady rst = t.cmdReady rst

/-- The ports carry position `i` of a register at bit `7 - i`; `STATUS_O` is STATUS in every state whose STATUS is legal;
`FAULT_O` is HALT; `CMD_READY` is 1 exactly when the core is not halted (10_state.md R21, for a core that is idle). -/
def Obligations.PortsShowTheRegisters : Prop :=
  ∀ s : State,
    (∀ i < 8, s.k1O.getLsbD (7 - i) = pos s.k1 i ∧ s.k2O.getLsbD (7 - i) = pos s.k2 i ∧ s.blkO.getLsbD (7 - i) = pos s.blk i) ∧
    (s.statusLegal → s.statusO = s.status) ∧ s.faultO = s.halt ∧ (s.cmdReady false = true ↔ s.halt = false)

/-! ### Clock level -/

/-- For every latency, an accepted word keeps `CMD_READY` at 0 and every register at its old value until its last cycle, and
then leaves exactly the state of the one step that runs it, whatever the host does with the command pins meanwhile
(43_host_commands.md R95; 70_reset_and_hazards.md R121, R123). The clocked view is the model's (notes/assumptions/7.md). -/
def Obligations.ClockedCommandRefinesTheStep : Prop :=
  ∀ (extra : CmdWord → Nat) (s : State) (p : Pins) (ps : List Pins), p.rst = false → p.cmdValid = true → s.halt = false →
    (∀ q ∈ ps, q.rst = false) →
    (ps.length < extra p.cmd → (ticks extra (p :: ps) { core := s, busy := none }).core = s ∧
      ∀ rst, (ticks extra (p :: ps) { core := s, busy := none }).cmdReady rst = false) ∧
    (ps.length = extra p.cmd → ∃ t, step (s.withPins (p :: s.pins)) = .next t ∧
      ticks extra (p :: ps) { core := s, busy := none } = { core := t, busy := none })

/-- RST while a command executes abandons it: no register write and no fault entry of it happens, and the state is the reset
state (70_reset_and_hazards.md R117). The clocked view is the model's (notes/assumptions/7.md). -/
def Obligations.ResetAbandonsTheCommandInFlight : Prop :=
  ∀ (extra : CmdWord → Nat) (c : Clocked) (p : Pins), p.rst = true →
    (tick extra p c).busy = none ∧ (tick extra p c).core = { State.reset with rom := c.core.rom, pins := c.core.pins }

/-! ### Text form -/

/-- The text form of every command, and that of the pseudo-instruction, assemble to their words (30_encoding.md R51, R52). -/
def Obligations.TextFormsAssemble : Prop :=
  (∀ i : Instr, assemble (textOf i) = .ok [encode i]) ∧
  ∀ (k : MasterKey) (b : Block),
    assemble (sdesText k b) = .ok [encode (.ldkey k), encode .keygen, encode (.ldblk b), encode .encrypt]

/-- An operand string with a character other than '0' and '1', or of the wrong length, is `MalformedBitInput`, and yields no
word (30_encoding.md R51; 60_exceptions.md R103). -/
def Obligations.MalformedBitStringsAreRejected : Prop :=
  ∀ (n : Nat) (cs : List Char),
    ((∃ ch ∈ cs, ch ≠ '0' ∧ ch ≠ '1') ∨ cs.length ≠ n → bitOperand n cs = .error (.fault .malformedBitInput)) ∧
    ((∀ ch ∈ cs, ch = '0' ∨ ch = '1') → cs.length = n →
      ∃ v : BitVec n, bitOperand n cs = .ok v ∧ ∀ i (h : i < cs.length), pos v i = (cs[i] == '1'))

/-- The start-up order LDKEY, KEYGEN, LDBLK, ENCRYPT (70_reset_and_hazards.md R118; 30_encoding.md R52), from any state that is
not halted, with tables as required: it ends successfully, the round keys of the key and the ciphertext of the block on the
ports. -/
def Obligations.StartUpOrderYieldsTheCiphertext : Prop :=
  ∀ (s : State) (k : MasterKey) (b : Block), s.halt = false → s.rom.ok = true →
    ∃ t k1 k2 b2, EndsSuccessfully ((sdes k b).map encode) s t ∧ ks s.rom k = .ok (k1, k2) ∧ enc2 s.rom b k1 k2 = .ok b2 ∧
      t.k1O = k1 ∧ t.k2O = k2 ∧ t.blkO = b2 ∧ t.faultO = false ∧ t.key = k

/-- A run that has ended halted accepts none of the words that follow: the longer run ends halted in the same state
(70_reset_and_hazards.md R124). -/
def Obligations.HaltedRunAcceptsNoFurtherWord : Prop :=
  ∀ (ws more : List CmdWord) (s t : State), EndsHalted ws s t → EndsHalted (ws ++ more) s t
end

