-- ==== Sys2Proof/Laws/Bits.lean ====
section
/-! SUPPORT. Bit vectors by position: what `pos` reads of each construction, and extensionality by position. -/

namespace Sys2Proof.Machine

/-- No position at or past the length holds a bit. -/
theorem pos_of_ge {n : Nat} (v : BitVec n) {i : Nat} (h : n ≤ i) : pos v i = false := by
  simp [pos, BitVec.getMsbD_of_ge, h]

/-- Two vectors with the same bit at every position are equal. -/
theorem eq_of_pos {n : Nat} {a b : BitVec n} (h : ∀ i < n, pos a i = pos b i) : a = b :=
  BitVec.eq_of_getMsbD_eq h

/-- What a vector given by positions holds. -/
theorem pos_ofPos (n : Nat) (f : Nat → Bool) (i : Nat) : pos (ofPos n f) i = (decide (i < n) && f i) := by
  induction n with
  | zero => simp [pos, ofPos]
  | succ n ih =>
    have step : pos (ofPos (n + 1) f) i = if i < n then pos (ofPos n f) i else decide (i = n) && f n :=
      BitVec.getMsbD_concat
    rcases Nat.lt_trichotomy i n with h | rfl | h
    · rw [step, if_pos h, ih]
      simp [h, Nat.lt_succ_of_lt h]
    · simp [step]
    · rw [step, if_neg (by omega)]
      simp [show ¬ i = n by omega, show ¬ i < n + 1 by omega]

/-- What a vector given by positions holds at a position of its own. -/
theorem pos_ofPos_of_lt {n : Nat} (f : Nat → Bool) {i : Nat} (h : i < n) : pos (ofPos n f) i = f i := by
  simp [pos_ofPos, h]

/-- A sub-vector's position is the vector's, moved by its start. -/
theorem pos_sub {n : Nat} (v : BitVec n) (a : Nat) {len i : Nat} (h : i < len) : pos (sub v a len) i = pos v (a + i) :=
  pos_ofPos_of_lt _ h

/-- A concatenation's positions are the first vector's, then the second's. -/
theorem pos_cat {n m : Nat} (a : BitVec n) (b : BitVec m) (i : Nat) :
    pos (cat a b) i = if i < n then pos a i else pos b (i - n) := by
  by_cases h : i < n
  · simp [pos, cat, BitVec.getMsbD_append, h, Nat.not_le.mpr h]
  · simp [pos, cat, BitVec.getMsbD_append, h, Nat.not_lt.mp h]

/-- Every position of the zero vector is 0. -/
theorem pos_zero (n i : Nat) : pos (0#n) i = false := by simp [pos]

/-- Bit `n - 1 - i` of the bus is position `i` of the vector (R8). -/
theorem getLsbD_eq_pos {n : Nat} (v : BitVec n) {i : Nat} (h : i < n) : v.getLsbD (n - 1 - i) = pos v i := by
  simp [pos, BitVec.getMsbD, h]

/-- Elementwise exclusive-or, by position. -/
theorem pos_xor {n : Nat} (a b : BitVec n) (i : Nat) : pos (a ^^^ b) i = (pos a i ^^ pos b i) := by
  simp [pos, BitVec.getMsbD_xor]

end Sys2Proof.Machine
end

