-- ==== Sys2Proof/Laws/State.lean ====
section
/-! SUPPORT. The fields of the state after each named update, one lemma per field per update, true by unfolding: no later
proof opens a record update. -/

namespace Sys2Proof.Machine

@[simp] theorem State.key_setKey (s : State) (k : MasterKey) : (s.setKey k).key = k := rfl

@[simp] theorem State.k1_setKey (s : State) (k : MasterKey) : (s.setKey k).k1 = s.k1 := rfl

@[simp] theorem State.k2_setKey (s : State) (k : MasterKey) : (s.setKey k).k2 = s.k2 := rfl

@[simp] theorem State.blk_setKey (s : State) (k : MasterKey) : (s.setKey k).blk = s.blk := rfl

@[simp] theorem State.status_setKey (s : State) (k : MasterKey) : (s.setKey k).status = s.status := rfl

@[simp] theorem State.rom_setKey (s : State) (k : MasterKey) : (s.setKey k).rom = s.rom := rfl

@[simp] theorem State.pins_setKey (s : State) (k : MasterKey) : (s.setKey k).pins = s.pins := rfl

@[simp] theorem State.key_setRoundKeys (s : State) (x y : RoundKey) : (s.setRoundKeys x y).key = s.key := rfl

@[simp] theorem State.k1_setRoundKeys (s : State) (x y : RoundKey) : (s.setRoundKeys x y).k1 = x := rfl

@[simp] theorem State.k2_setRoundKeys (s : State) (x y : RoundKey) : (s.setRoundKeys x y).k2 = y := rfl

@[simp] theorem State.blk_setRoundKeys (s : State) (x y : RoundKey) : (s.setRoundKeys x y).blk = s.blk := rfl

@[simp] theorem State.status_setRoundKeys (s : State) (x y : RoundKey) : (s.setRoundKeys x y).status = s.status := rfl

@[simp] theorem State.rom_setRoundKeys (s : State) (x y : RoundKey) : (s.setRoundKeys x y).rom = s.rom := rfl

@[simp] theorem State.pins_setRoundKeys (s : State) (x y : RoundKey) : (s.setRoundKeys x y).pins = s.pins := rfl

@[simp] theorem State.key_setBlk (s : State) (b : Block) : (s.setBlk b).key = s.key := rfl

@[simp] theorem State.k1_setBlk (s : State) (b : Block) : (s.setBlk b).k1 = s.k1 := rfl

@[simp] theorem State.k2_setBlk (s : State) (b : Block) : (s.setBlk b).k2 = s.k2 := rfl

@[simp] theorem State.blk_setBlk (s : State) (b : Block) : (s.setBlk b).blk = b := rfl

@[simp] theorem State.status_setBlk (s : State) (b : Block) : (s.setBlk b).status = s.status := rfl

@[simp] theorem State.rom_setBlk (s : State) (b : Block) : (s.setBlk b).rom = s.rom := rfl

@[simp] theorem State.pins_setBlk (s : State) (b : Block) : (s.setBlk b).pins = s.pins := rfl

@[simp] theorem State.key_setKeyv (s : State) (b : Bool) : (s.setKeyv b).key = s.key := rfl

@[simp] theorem State.k1_setKeyv (s : State) (b : Bool) : (s.setKeyv b).k1 = s.k1 := rfl

@[simp] theorem State.k2_setKeyv (s : State) (b : Bool) : (s.setKeyv b).k2 = s.k2 := rfl

@[simp] theorem State.blk_setKeyv (s : State) (b : Bool) : (s.setKeyv b).blk = s.blk := rfl

@[simp] theorem State.status_setKeyv (s : State) (b : Bool) : (s.setKeyv b).status = writeBit s.status keyvBit b := rfl

@[simp] theorem State.rom_setKeyv (s : State) (b : Bool) : (s.setKeyv b).rom = s.rom := rfl

@[simp] theorem State.pins_setKeyv (s : State) (b : Bool) : (s.setKeyv b).pins = s.pins := rfl

@[simp] theorem State.key_setRkv (s : State) (b : Bool) : (s.setRkv b).key = s.key := rfl

@[simp] theorem State.k1_setRkv (s : State) (b : Bool) : (s.setRkv b).k1 = s.k1 := rfl

@[simp] theorem State.k2_setRkv (s : State) (b : Bool) : (s.setRkv b).k2 = s.k2 := rfl

@[simp] theorem State.blk_setRkv (s : State) (b : Bool) : (s.setRkv b).blk = s.blk := rfl

@[simp] theorem State.status_setRkv (s : State) (b : Bool) : (s.setRkv b).status = writeBit s.status rkvBit b := rfl

@[simp] theorem State.rom_setRkv (s : State) (b : Bool) : (s.setRkv b).rom = s.rom := rfl

@[simp] theorem State.pins_setRkv (s : State) (b : Bool) : (s.setRkv b).pins = s.pins := rfl

@[simp] theorem State.key_setBlkv (s : State) (b : Bool) : (s.setBlkv b).key = s.key := rfl

@[simp] theorem State.k1_setBlkv (s : State) (b : Bool) : (s.setBlkv b).k1 = s.k1 := rfl

@[simp] theorem State.k2_setBlkv (s : State) (b : Bool) : (s.setBlkv b).k2 = s.k2 := rfl

@[simp] theorem State.blk_setBlkv (s : State) (b : Bool) : (s.setBlkv b).blk = s.blk := rfl

@[simp] theorem State.status_setBlkv (s : State) (b : Bool) : (s.setBlkv b).status = writeBit s.status blkvBit b := rfl

@[simp] theorem State.rom_setBlkv (s : State) (b : Bool) : (s.setBlkv b).rom = s.rom := rfl

@[simp] theorem State.pins_setBlkv (s : State) (b : Bool) : (s.setBlkv b).pins = s.pins := rfl

@[simp] theorem State.key_faultEntry (s : State) (c : FaultKind) : (s.faultEntry c).key = s.key := rfl

@[simp] theorem State.k1_faultEntry (s : State) (c : FaultKind) : (s.faultEntry c).k1 = s.k1 := rfl

@[simp] theorem State.k2_faultEntry (s : State) (c : FaultKind) : (s.faultEntry c).k2 = s.k2 := rfl

@[simp] theorem State.blk_faultEntry (s : State) (c : FaultKind) : (s.faultEntry c).blk = s.blk := rfl

@[simp] theorem State.status_faultEntry (s : State) (c : FaultKind) : (s.faultEntry c).status = writeBit (writeErr s.status c.code) haltBit true := rfl

@[simp] theorem State.rom_faultEntry (s : State) (c : FaultKind) : (s.faultEntry c).rom = s.rom := rfl

@[simp] theorem State.pins_faultEntry (s : State) (c : FaultKind) : (s.faultEntry c).pins = s.pins := rfl

@[simp] theorem State.key_withPins (s : State) (ps : List Pins) : (s.withPins ps).key = s.key := rfl

@[simp] theorem State.k1_withPins (s : State) (ps : List Pins) : (s.withPins ps).k1 = s.k1 := rfl

@[simp] theorem State.k2_withPins (s : State) (ps : List Pins) : (s.withPins ps).k2 = s.k2 := rfl

@[simp] theorem State.blk_withPins (s : State) (ps : List Pins) : (s.withPins ps).blk = s.blk := rfl

@[simp] theorem State.status_withPins (s : State) (ps : List Pins) : (s.withPins ps).status = s.status := rfl

@[simp] theorem State.rom_withPins (s : State) (ps : List Pins) : (s.withPins ps).rom = s.rom := rfl

@[simp] theorem State.pins_withPins (s : State) (ps : List Pins) : (s.withPins ps).pins = ps := rfl

@[simp] theorem State.key_resetCore (s : State) : (s.resetCore).key = 0#10 := rfl

@[simp] theorem State.k1_resetCore (s : State) : (s.resetCore).k1 = 0#8 := rfl

@[simp] theorem State.k2_resetCore (s : State) : (s.resetCore).k2 = 0#8 := rfl

@[simp] theorem State.blk_resetCore (s : State) : (s.resetCore).blk = 0#8 := rfl

@[simp] theorem State.status_resetCore (s : State) : (s.resetCore).status = 0#8 := rfl

@[simp] theorem State.rom_resetCore (s : State) : (s.resetCore).rom = s.rom := rfl

@[simp] theorem State.pins_resetCore (s : State) : (s.resetCore).pins = s.pins := rfl

/-- Presenting pin samples twice keeps the later ones. -/
@[simp] theorem State.withPins_withPins (s : State) (ps qs : List Pins) : (s.withPins ps).withPins qs = s.withPins qs := rfl

/-- Presenting what is already there changes nothing. -/
@[simp] theorem State.withPins_pins (s : State) : s.withPins s.pins = s := rfl

end Sys2Proof.Machine
end

