-- ==== Sys2Proof/Laws/Flags.lean ====
section
/-! SUPPORT. What each write to STATUS leaves in each of its bits and fields. -/

namespace Sys2Proof.Machine

/-- A written bit holds what was written, every other bit what it held. -/
theorem getLsbD_writeBit (st : BitVec 8) (n : Nat) (b : Bool) {m : Nat} (h : n < 8) :
    (writeBit st n b).getLsbD m = if m = n then b else st.getLsbD m := by
  have key : ∀ n : Fin 8, ∀ m : Fin 8, ∀ b : Bool, (writeBit st n b).getLsbD m = if m.val = n.val then b else st.getLsbD m := by
    intro n m b
    fin_cases n <;> fin_cases m <;> cases b <;> simp [writeBit]
  by_cases hm : m < 8
  · exact key ⟨n, h⟩ ⟨m, hm⟩ b
  · rw [BitVec.getLsbD_of_ge _ _ (by omega), BitVec.getLsbD_of_ge _ _ (by omega)]
    simp [show ¬ m = n by omega]

/-- Writing the `ERR` field leaves bits 4 to 6 with the code and every other bit as it was. -/
theorem getLsbD_writeErr (st : BitVec 8) (c : BitVec 3) (m : Nat) :
    (writeErr st c).getLsbD m = if 4 ≤ m ∧ m < 7 then c.getLsbD (m - 4) else st.getLsbD m := by
  by_cases hm : m < 8
  · have key : ∀ m : Fin 8, (writeErr st c).getLsbD m = if 4 ≤ m.val ∧ m.val < 7 then c.getLsbD (m - 4) else st.getLsbD m := by
      intro m
      fin_cases m <;> simp [writeErr, errLow]
    exact key ⟨m, hm⟩
  · rw [BitVec.getLsbD_of_ge _ _ (by omega), if_neg (by omega), BitVec.getLsbD_of_ge _ _ (by omega)]

/-- The `ERR` field by its bits. -/
theorem err_getLsbD (s : State) {i : Nat} (h : i < 3) : s.err.getLsbD i = s.status.getLsbD (4 + i) := by
  simp [State.err, errLow, h]

/-- The `ERR` fields of two states whose bits 4 to 6 agree are equal. -/
theorem err_congr {s t : State} (h : ∀ i, 4 ≤ i → i < 7 → t.status.getLsbD i = s.status.getLsbD i) : t.err = s.err := by
  apply BitVec.eq_of_getLsbD_eq
  intro i hi
  rw [err_getLsbD _ hi, err_getLsbD _ hi]
  exact h _ (by omega) (by omega)

end Sys2Proof.Machine
end

