-- ==== Sys2Proof/Laws/Ops.lean ====
section
/-! SUPPORT. What the shared operations of the machine can answer: the end of a command, fault entry, the operands. -/

namespace Sys2Proof.Machine

/-- How a command can end: with its writes, or with fault entry on the state before it. -/
theorem finish_eq_next {s t : State} {r : Except FaultKind State} :
    finish s r = .next t ↔ r = .ok t ∨ ∃ c, r = .error c ∧ t = s.faultEntry c := by
  cases r <;> simp [finish, eq_comm]

/-- A command always ends in a next state. -/
theorem finish_answers (s : State) (r : Except FaultKind State) : ∃ t, finish s r = .next t := by
  cases r <;> exact ⟨_, rfl⟩

/-- Every bit of STATUS after fault entry. -/
theorem getLsbD_faultEntry (s : State) (c : FaultKind) (n : Nat) :
    (s.faultEntry c).status.getLsbD n =
      if n = 3 then true else if 4 ≤ n ∧ n < 7 then c.code.getLsbD (n - 4) else s.status.getLsbD n := by
  rw [State.status_faultEntry, getLsbD_writeBit _ _ _ (by decide), getLsbD_writeErr]
  rfl

/-- Fault entry records the code and halts. -/
theorem faultedWith_faultEntry (s : State) (c : FaultKind) : FaultedWith c.code s (s.faultEntry c) := by
  refine ⟨?_, (getLsbD_faultEntry s c 3).trans (if_pos rfl), ⟨rfl, rfl, rfl, rfl, rfl, fun n hn => ?_⟩, rfl⟩
  · apply BitVec.eq_of_getLsbD_eq
    intro i hi
    rw [err_getLsbD _ hi, getLsbD_faultEntry, if_neg (by omega), if_pos (by omega)]
    congr 1
    omega
  · simp only [List.mem_cons, List.not_mem_nil, or_false, not_or] at hn
    rw [getLsbD_faultEntry, if_neg (by omega), if_neg (by omega)]

/-- The operand of KEYGEN when a master key is loaded. -/
theorem masterKeyOperand_ok {s : State} (h : s.keyv = true) : masterKeyOperand s = .ok s.key := by
  simp [masterKeyOperand, h]

/-- The operand of KEYGEN when none is loaded. -/
theorem masterKeyOperand_error {s : State} (h : s.keyv = false) : masterKeyOperand s = .error .operandNotReady := by
  simp [masterKeyOperand, h]

/-- The operand of ROUND and ENCRYPT when round keys and block are valid. -/
theorem blkOperand_ok {s : State} (hr : s.rkv = true) (hb : s.blkv = true) : blkOperand s = .ok s.blk := by
  simp [blkOperand, hr, hb]

/-- The operand of ROUND and ENCRYPT when round keys or block are not valid. -/
theorem blkOperand_error {s : State} (h : s.rkv = false ∨ s.blkv = false) : blkOperand s = .error .operandNotReady := by
  rcases h with h | h <;> simp [blkOperand, h]

end Sys2Proof.Machine
end

