-- ==== Sys2Proof/Laws/Units.lean ====
section
/-! SUPPORT. What each combinational unit answers: one lemma per unit (40_primitives.md R55 to R66). -/

namespace Sys2Proof.Machine

/-- TabRead inside the table is the entry. -/
theorem tabRead_of_lt {m : Nat} (t : Table m) {i : Nat} (h : i < m) : tabRead t i = (t[i]).toNat := by
  simp [tabRead, h]

/-- The check of a table, entry by entry. -/
theorem entriesWithin_iff {n m : Nat} (t : Table m) :
    entriesWithin n t = true ↔ ∀ i (h : i < m), 1 ≤ (t[i]).toNat ∧ (t[i]).toNat ≤ n := by
  simp only [entriesWithin, List.all_eq_true, Bool.and_eq_true, decide_eq_true_eq]
  constructor
  · intro h i hi
    exact h _ (by simp)
  · intro h e he
    obtain ⟨i, hi, rfl⟩ := List.mem_iff_getElem.mp he
    simpa using h i (by simpa using hi)

/-- PERM's index check is the check of the table. -/
theorem indexCheck_eq_entriesWithin (n : Nat) {m : Nat} (t : Table m) : indexCheck n t = entriesWithin n t := by
  rw [Bool.eq_iff_iff, entriesWithin_iff]
  simp only [indexCheck, List.all_eq_true, List.mem_range, Bool.and_eq_true, decide_eq_true_eq]
  refine forall₂_congr fun i hi => ?_
  rw [tabRead_of_lt t hi]

/-- What PERM answers: the selected positions, or the fault. -/
theorem perm_eq {n m : Nat} (v : BitVec n) (t : Table m) :
    perm v t = if entriesWithin n t then .ok (ofPos m fun i => pos v (selected t i)) else .error .invalidTableIndex := by
  rw [← indexCheck_eq_entriesWithin]
  rfl

/-- What XOR answers on equal lengths. -/
theorem xor_eq_ok {n : Nat} (a b : BitVec n) : xor a b = .ok (a ^^^ b) := by
  rw [xor, if_pos rfl]
  congr 1
  refine eq_of_pos fun i hi => ?_
  rw [pos_ofPos_of_lt _ hi, pos_xor]

/-- What XOR answers on different lengths. -/
theorem xor_eq_error {n m : Nat} (a : BitVec n) (b : BitVec m) (h : n ≠ m) : xor a b = .error .lengthMismatch :=
  if_neg h

/-- What SBOX answers on a 4-bit input. -/
theorem sbox_eq_ok (v : BitVec 4) (a : SBoxArray) : sbox v a = .ok (entryBits (sboxRead a (sboxRow v) (sboxCol v))) :=
  if_pos rfl

/-- P4's entries are legal indices into four positions (10_state.md R24). -/
theorem entriesWithin_p4 : entriesWithin 4 p4 = true := by decide

end Sys2Proof.Machine
end

