-- ==== Sys2Proof/Laws/Commands.lean ====
section
/-! SUPPORT. What each command can answer, case by case, and what a step can do: the inversion lemmas that later proofs cite
instead of unfolding exec and step. -/

namespace Sys2Proof.Machine

/-- KEYGEN's writes, case by case. -/
theorem keygenWrites_eq (s : State) :
    keygenWrites s = if s.keyv then (ks s.rom s.key).map (fun k => (s.setRoundKeys k.1 k.2).setRkv true)
      else .error .operandNotReady := by
  cases h : s.keyv
  · simp [keygenWrites, masterKeyOperand_error h, bind, Except.bind]
  · cases hk : ks s.rom s.key <;> simp [keygenWrites, masterKeyOperand_ok h, bind, Except.bind, hk, Except.map]

/-- ROUND's writes, case by case. -/
theorem roundWrites_eq (sel : KeySel) (s : State) :
    roundWrites sel s = if s.rkv && s.blkv then (rf s.rom s.blk (s.roundKey sel)).map s.setBlk
      else .error .operandNotReady := by
  cases hr : s.rkv
  · simp [roundWrites, blkOperand_error (Or.inl hr), bind, Except.bind]
  · cases hb : s.blkv
    · simp [roundWrites, blkOperand_error (Or.inr hb), bind, Except.bind]
    · cases hf : rf s.rom s.blk (s.roundKey sel) <;>
        simp [roundWrites, blkOperand_ok hr hb, bind, Except.bind, hf, Except.map]

/-- ENCRYPT's writes, case by case. -/
theorem encryptWrites_eq (s : State) :
    encryptWrites s = if s.rkv && s.blkv then (enc2 s.rom s.blk s.k1 s.k2).map s.setBlk
      else .error .operandNotReady := by
  cases hr : s.rkv
  · simp [encryptWrites, blkOperand_error (Or.inl hr), bind, Except.bind]
  · cases hb : s.blkv
    · simp [encryptWrites, blkOperand_error (Or.inr hb), bind, Except.bind]
    · cases hf : enc2 s.rom s.blk s.k1 s.k2 <;>
        simp [encryptWrites, blkOperand_ok hr hb, bind, Except.bind, hf, Except.map]

/-- What a command's writes are when it completes. -/
def Completes (i : Instr) (s t : State) : Prop :=
  match i with
  | .nop => t = s
  | .ldkey k => t = (((s.setKey k).setRoundKeys 0#8 0#8).setKeyv true).setRkv false
  | .ldblk b => t = (s.setBlk b).setBlkv true
  | .keygen => s.keyv = true ∧ ∃ k1 k2, ks s.rom s.key = .ok (k1, k2) ∧ t = (s.setRoundKeys k1 k2).setRkv true
  | .round sel => s.rkv = true ∧ s.blkv = true ∧ ∃ b, rf s.rom s.blk (s.roundKey sel) = .ok b ∧ t = s.setBlk b
  | .encrypt => s.rkv = true ∧ s.blkv = true ∧ ∃ b, enc2 s.rom s.blk s.k1 s.k2 = .ok b ∧ t = s.setBlk b

/-- A command's register writes, or the fault it raises. -/
def writes (i : Instr) (s : State) : Except FaultKind State :=
  match i with
  | .nop => .ok s
  | .ldkey k => .ok ((((s.setKey k).setRoundKeys 0#8 0#8).setKeyv true).setRkv false)
  | .ldblk b => .ok ((s.setBlk b).setBlkv true)
  | .keygen => keygenWrites s
  | .round sel => roundWrites sel s
  | .encrypt => encryptWrites s

/-- Every command ends in the one way. -/
theorem exec_eq_finish (i : Instr) (s : State) : exec i s = finish s (writes i s) := by cases i <;> rfl

/-- The writes that a command makes are those of its completion. -/
theorem completes_of_writes {i : Instr} {s t : State} (h : writes i s = .ok t) : Completes i s t := by
  cases i with
  | nop | ldkey k | ldblk b => exact (Except.ok.inj h).symm
  | keygen =>
    rw [writes, keygenWrites_eq] at h
    split at h
    · next hv =>
      cases hk : ks s.rom s.key with
      | error c => simp [hk, Except.map] at h
      | ok k =>
        rw [hk] at h
        exact ⟨hv, k.1, k.2, hk, (Except.ok.inj h).symm⟩
    · cases h
  | round sel =>
    rw [writes, roundWrites_eq] at h
    split at h
    · next hv =>
      rw [Bool.and_eq_true] at hv
      cases hb : rf s.rom s.blk (s.roundKey sel) with
      | error c => simp [hb, Except.map] at h
      | ok b =>
        rw [hb] at h
        exact ⟨hv.1, hv.2, b, hb, (Except.ok.inj h).symm⟩
    · cases h
  | encrypt =>
    rw [writes, encryptWrites_eq] at h
    split at h
    · next hv =>
      rw [Bool.and_eq_true] at hv
      cases hb : enc2 s.rom s.blk s.k1 s.k2 with
      | error c => simp [hb, Except.map] at h
      | ok b =>
        rw [hb] at h
        exact ⟨hv.1, hv.2, b, hb, (Except.ok.inj h).symm⟩
    · cases h

/-- A command either completes with its writes, or takes a fault and writes nothing else. -/
theorem exec_cases {i : Instr} {s t : State} (h : exec i s = .next t) :
    Completes i s t ∨ ∃ c, t = s.faultEntry c := by
  rw [exec_eq_finish] at h
  rcases finish_eq_next.mp h with h | ⟨c, -, rfl⟩
  · exact Or.inl (completes_of_writes h)
  · exact Or.inr ⟨c, rfl⟩

/-- What a step can do: wait, reset, ignore a sample, run a command, or take `IllegalCommand`. -/
theorem step_cases {s t : State} (h : step s = .next t) :
    (s.pins = [] ∧ t = s) ∨
    ∃ p ps, s.pins = p :: ps ∧
      (p.rst = true ∧ t = (s.withPins ps).resetCore ∨
       p.rst = false ∧ s.accepts p = false ∧ t = s.withPins ps ∨
       p.rst = false ∧ s.accepts p = true ∧ (∃ i, decode p.cmd = .ok i ∧ exec i (s.withPins ps) = .next t) ∨
       p.rst = false ∧ s.accepts p = true ∧
        (∃ e, decode p.cmd = .error e ∧ t = (s.withPins ps).faultEntry .illegalCommand)) := by
  unfold step handshake at h
  cases hp : s.pins with
  | nil =>
    simp only [hp, Host.Outcome.next.injEq] at h
    exact Or.inl ⟨rfl, h.symm⟩
  | cons p ps =>
    refine Or.inr ⟨p, ps, rfl, ?_⟩
    simp only [hp, pinStep] at h
    have ha : (s.withPins ps).accepts p = s.accepts p := rfl
    rw [ha] at h
    cases hr : p.rst with
    | true => exact Or.inl ⟨rfl, by simpa [hr, eq_comm] using h⟩
    | false =>
      cases hacc : s.accepts p with
      | false => exact Or.inr (Or.inl ⟨rfl, rfl, by simpa [hr, hacc, eq_comm] using h⟩)
      | true =>
        simp only [hr, hacc, runWord, if_true, Bool.false_eq_true, if_false] at h
        cases hd : decode p.cmd with
        | ok i => exact Or.inr (Or.inr (Or.inl ⟨rfl, rfl, i, rfl, by simpa [hd] using h⟩))
        | error e =>
          refine Or.inr (Or.inr (Or.inr ⟨rfl, rfl, e, rfl, ?_⟩))
          simp only [hd] at h
          rcases finish_eq_next.mp h with h | ⟨c, hc, rfl⟩
          · cases h
          · cases hc
            rfl

end Sys2Proof.Machine
end

