-- ==== Sys2Proof/Laws/Cipher.lean ====
section
/-! SUPPORT. The value of the key schedule and of a round when the tables are as required (70_reset_and_hazards.md R119), and
that the state's coming input has no part in a command: the spec lemmas of KS, RF and exec. -/

namespace Sys2Proof.Machine

/-- A table whose entries are legal selects positions of its input. -/
theorem selected_lt {n m : Nat} {t : Table m} (h : entriesWithin n t = true) {i : Nat} (hi : i < m) : selected t i < n := by
  have := (entriesWithin_iff t).mp h i hi
  simp only [selected, Vector.getElem?_eq_getElem hi, Option.getD_some]
  omega

/-- What `roundOk` says. -/
theorem roundOk_iff (c : Cfg) : c.roundOk = true ↔
    entriesWithin 8 c.ip = true ∧ entriesWithin 4 c.ep.entries = true ∧ c.ep.len.val = 8 ∧ entriesWithin 8 c.ipinv = true := by
  simp [Cfg.roundOk, and_assoc]

/-- The named values of a round, without the checks. -/
def roundValue (c : Cfg) (b : Block) (k : RoundKey) : RfTrace c.ep.len.val :=
  let p : BitVec 8 := ofPos 8 fun i => pos b (selected c.ip i)
  let l : DataHalf := sub p 0 4
  let r : DataHalf := sub p 4 4
  let e : BitVec c.ep.len.val := ofPos _ fun i => pos r (selected c.ep.entries i)
  let x : BitVec 8 := ofPos 8 fun i => pos e i ^^ pos k i
  let y0 : BitVec 4 := sub x 0 4
  let y1 : BitVec 4 := sub x 4 4
  let s0 := entryBits (sboxRead c.sbox0 (sboxRow y0) (sboxCol y0))
  let s1 := entryBits (sboxRead c.sbox1 (sboxRow y1) (sboxCol y1))
  let s : BitVec 4 := cat s0 s1
  let q : BitVec 4 := ofPos 4 fun i => pos s (selected p4 i)
  let l' : DataHalf := q ^^^ l
  { p, l, r, e, x, s0, s1, s, q, l', out := ofPos 8 fun i => pos (cat l' r) (selected c.ipinv i) }

/-- With tables as required, a round answers its value. -/
theorem rfTrace_of_roundOk {c : Cfg} (h : c.roundOk = true) (b : Block) (k : RoundKey) :
    rfTrace c b k = .ok (roundValue c b k) := by
  obtain ⟨h1, h2, h3, h4⟩ := (roundOk_iff c).mp h
  have h4' : entriesWithin (4 + 4) c.ipinv = true := h4
  have h5 : entriesWithin (2 + 2) p4 = true := entriesWithin_p4
  simp [rfTrace, roundValue, perm_eq, h1, h2, h3, h4', h5, bind, Except.bind, xor_eq_ok, sbox_eq_ok,
    xor.eq_1 (n := c.ep.len.val)]

/-- The two round keys, without the checks. -/
def keyScheduleValue (c : Cfg) (key : MasterKey) : RoundKey × RoundKey :=
  let p : BitVec 10 := ofPos 10 fun i => pos key (selected c.p10 i)
  let kl1 : KeyHalf := rotl (sub p 0 5) 1
  let kr1 : KeyHalf := rotl (sub p 5 5) 1
  (ofPos 8 fun i => pos (cat kl1 kr1) (selected c.p8 i), ofPos 8 fun i => pos (cat (rotl kl1 2) (rotl kr1 2)) (selected c.p8 i))

/-- With tables as required, the key schedule answers its value. -/
theorem ks_of_keyScheduleOk {c : Cfg} (h : c.keyScheduleOk = true) (key : MasterKey) :
    ks c key = .ok (keyScheduleValue c key) := by
  simp only [Cfg.keyScheduleOk, Bool.and_eq_true] at h
  have h2 : entriesWithin (5 + 5) c.p8 = true := h.2
  simp [ks, ksTrace, keyScheduleValue, perm_eq, h.1, h2, bind, Except.bind]

/-- What the host will drive has no part in a command: its writes commute with changing that. -/
theorem writes_withPins (i : Instr) (s : State) (ps : List Pins) :
    writes i (s.withPins ps) = (writes i s).map (·.withPins ps) := by
  cases i with
  | nop | ldkey k | ldblk b => rfl
  | keygen =>
    simp only [writes, keygenWrites_eq]
    change (if s.keyv then Except.map _ (ks s.rom s.key) else _) = _
    split_ifs
    · cases ks s.rom s.key <;> rfl
    · rfl
  | round sel =>
    simp only [writes, roundWrites_eq]
    have hk : (s.withPins ps).roundKey sel = s.roundKey sel := by cases sel <;> rfl
    rw [hk]
    change (if s.rkv && s.blkv then Except.map _ (rf s.rom s.blk _) else _) = _
    split_ifs
    · cases rf s.rom s.blk (s.roundKey sel) <;> rfl
    · rfl
  | encrypt =>
    simp only [writes, encryptWrites_eq]
    change (if s.rkv && s.blkv then Except.map _ (enc2 s.rom s.blk s.k1 s.k2) else _) = _
    split_ifs
    · cases enc2 s.rom s.blk s.k1 s.k2 <;> rfl
    · rfl

end Sys2Proof.Machine
end

