-- ==== Sys2Proof/Laws/Decode.lean ====
section
/-! SUPPORT. The bits of a word made of fields, and the fields of an encoded command (30_encoding.md R40). -/

namespace Sys2Proof

open Sys2Proof.Machine

/-- The bits of a word made of fields. -/
theorem getLsbD_wordOf (f : Fields) (i : Nat) :
    (wordOf f).getLsbD i =
      if i < 10 then f.arg.getLsbD i else if i < 12 then f.rsv.getLsbD (i - 10) else f.op.getLsbD (i - 12) := by
  have h : (wordOf f).getLsbD i = if i < 10 then f.arg.getLsbD i else (f.op ++ f.rsv).getLsbD (i - 10) :=
    BitVec.getLsbD_append
  rw [h, BitVec.getLsbD_append]
  rcases Nat.lt_or_ge i 10 with h1 | h1
  · simp [h1]
  · simp only [show ¬ i < 10 by omega, if_false, Nat.sub_sub]
    exact if_congr (by omega) rfl rfl

/-- The bits of a bus field. -/
theorem getLsbD_busField {n : Nat} (w : BitVec n) (lo len i : Nat) :
    (busField w lo len).getLsbD i = (decide (i < len) && w.getLsbD (lo + i)) := by
  simp [busField, BitVec.getLsbD_extractLsb']

/-- The fields of a word made of fields are those fields. -/
theorem fieldsOf_wordOf (f : Fields) : fieldsOf (wordOf f) = f := by
  obtain ⟨op, rsv, arg⟩ := f
  simp only [fieldsOf, Fields.mk.injEq]
  refine ⟨?_, ?_, ?_⟩ <;> apply BitVec.eq_of_getLsbD_eq <;> intro i hi <;> rw [getLsbD_busField, getLsbD_wordOf]
  · simp [hi, show ¬ 12 + i < 10 by omega, show ¬ 12 + i < 12 by omega]
  · simp [hi, show ¬ 10 + i < 10 by omega, show 10 + i < 12 by omega]
  · simp [hi]

/-- The fields of an encoded command. -/
theorem fieldsOf_encode (i : Instr) : fieldsOf (encode i) = ⟨opOf i, 0#2, argOf i⟩ := fieldsOf_wordOf _

end Sys2Proof
end

