-- ==== Sys2Proof/Laws/PerInstr.lean ====
section
/-! SUPPORT. Statements made per instruction. Family `LegalWord`: the word of every command is well formed, that is, in none of
the reserved classes (30_encoding.md R47, R48). -/

namespace Sys2Proof.Laws.LegalWord

open Sys2Proof Sys2Proof.Machine

/-- The fields of the command's word are those of a legal word. -/
def Statement (i : Instr) : Prop := (fieldsOf (encode i)).wf = true

theorem nop : Statement .nop := by rw [Statement, fieldsOf_encode]; rfl

theorem ldkey (k : MasterKey) : Statement (.ldkey k) := by rw [Statement, fieldsOf_encode]; rfl

theorem ldblk (b : Block) : Statement (.ldblk b) := by
  rw [Statement, fieldsOf_encode]
  have h : (b.setWidth 10).extractLsb' 8 2 = 0#2 := by
    apply BitVec.eq_of_getLsbD_eq
    intro i hi
    simp [BitVec.getLsbD_extractLsb', BitVec.getLsbD_setWidth]
  simp [Fields.wf, Fields.rsvOk, Fields.opOk, Fields.argOk, opOf, argOf, h]

theorem keygen : Statement .keygen := by rw [Statement, fieldsOf_encode]; rfl

theorem round (ks : KeySel) : Statement (.round ks) := by rw [Statement, fieldsOf_encode]; cases ks <;> rfl

theorem encrypt : Statement .encrypt := by rw [Statement, fieldsOf_encode]; rfl

end Sys2Proof.Laws.LegalWord
end

