-- ==== Sys2Proof/Tests/Slice0.lean ====
section
/-! SUPPORT. The model's own tests: the well-formedness smoke, decode words, unit and command vectors, each expected value taken
from spec/95_test_vectors.md (V1 to V9, P1 to P8), and a witness for the hypotheses of each statement of
Certificates/Slice0/Obligations.lean. -/

namespace Sys2Proof.Tests

open Sys2Proof Sys2Proof.Machine

/-! ### Configurations of 95_test_vectors.md -/

/-- `CFG_ID`. -/
def cfgId : Cfg :=
  { p10 := #v[1, 2, 3, 4, 5, 6, 7, 8, 9, 10], p8 := #v[1, 2, 3, 4, 5, 6, 7, 8], ip := #v[1, 2, 3, 4, 5, 6, 7, 8],
    ep := { len := 8, entries := #v[1, 2, 3, 4, 1, 2, 3, 4] }, ipinv := #v[1, 2, 3, 4, 5, 6, 7, 8],
    sbox0 := #v[#v[0, 1, 2, 3], #v[0, 1, 2, 3], #v[0, 1, 2, 3], #v[0, 1, 2, 3]],
    sbox1 := #v[#v[0, 0, 0, 0], #v[1, 1, 1, 1], #v[2, 2, 2, 2], #v[3, 3, 3, 3]] }

/-- `CFG_CLASSIC` (93_implementation_defined.md G1: general knowledge, used in tests only). -/
def cfgClassic : Cfg :=
  { p10 := #v[3, 5, 2, 7, 4, 10, 1, 9, 8, 6], p8 := #v[6, 3, 7, 4, 8, 5, 10, 9], ip := #v[2, 6, 3, 1, 4, 8, 5, 7],
    ep := { len := 8, entries := #v[4, 1, 2, 3, 2, 3, 4, 1] }, ipinv := #v[4, 1, 3, 5, 7, 2, 8, 6],
    sbox0 := #v[#v[1, 0, 3, 2], #v[3, 2, 1, 0], #v[0, 2, 1, 3], #v[3, 1, 3, 2]],
    sbox1 := #v[#v[0, 1, 2, 3], #v[2, 0, 1, 3], #v[3, 0, 1, 0], #v[2, 1, 0, 3]] }

/-- `CFG_EP4`. -/
def cfgEp4 : Cfg := { cfgClassic with ep := { len := 4, entries := #v[4, 1, 2, 3] } }

/-- `CFG_BADP8`. -/
def cfgBadP8 : Cfg := { cfgClassic with p8 := #v[6, 3, 7, 4, 8, 5, 11, 9] }

/-- `CFG_BADIP`. -/
def cfgBadIp : Cfg := { cfgClassic with ip := #v[2, 6, 3, 1, 4, 0, 5, 7] }

/-- `CFG_BADEP`. -/
def cfgBadEp : Cfg := { cfgClassic with ep := { len := 4, entries := #v[4, 1, 2, 5] } }

/-- `CFG_CLASSIC` with an entry of P10 at 0, and with an entry of IP⁻¹ at 9: the two checks that V7 has no row for. -/
def cfgBadP10 : Cfg := { cfgClassic with p10 := #v[3, 5, 2, 7, 4, 10, 1, 9, 8, 0] }

/-- See cfgBadP10. -/
def cfgBadIpinv : Cfg := { cfgClassic with ipinv := #v[4, 1, 3, 5, 7, 2, 8, 9] }

/-- A small state: registers, status and tables, nothing presented. -/
def mk (key : MasterKey) (k1 k2 : RoundKey) (blk : Block) (status : BitVec 8) (rom : Cfg) : State :=
  { key, k1, k2, blk, status, rom, pins := [] }

/-- All valid, as after step 3 of P1. -/
def ready (rom : Cfg) : State := mk 0b1010000010#10 0b10100100#8 0b01000011#8 0b10100101#8 0x07#8 rom

/-- The state a command answers, for comparing. -/
def answered (r : Result) : Option State :=
  match r with
  | .next t => some t
  | _ => none

/-! ### Well-formedness smoke: an ill-formed term for each check -/

theorem test_rsvOk_refuses : (fieldsOf 0x1682#16).rsvOk = false := by decide
theorem test_opOk_refuses : (fieldsOf 0x6000#16).opOk = false := by decide
theorem test_argOk_refuses :
    [0x0001#16, 0x21A5#16, 0x3001#16, 0x4002#16, 0x5200#16].all (fun w => !(fieldsOf w).argOk) = true := by decide
theorem test_wf_refuses : (fieldsOf 0xFFFF#16).wf = false ∧ (fieldsOf 0x1A82#16).wf = false := by decide
theorem test_entriesWithin_refuses : entriesWithin 8 cfgBadIp.ip = false ∧ entriesWithin 10 cfgBadP8.p8 = false := by decide
theorem test_keyScheduleOk_refuses : cfgBadP8.keyScheduleOk = false ∧ cfgBadP10.keyScheduleOk = false := by decide
theorem test_roundOk_refuses :
    [cfgEp4, cfgBadIp, cfgBadEp, cfgBadIpinv].all (fun c => !c.roundOk) = true := by decide
theorem test_cfg_ok_refuses : cfgBadP8.ok = false ∧ cfgEp4.ok = false := by decide
theorem test_inverseTables_refuses : inverseTables cfgClassic.ip cfgClassic.ip = false := by decide
theorem test_good_configurations : cfgId.ok = true ∧ cfgClassic.ok = true ∧ ipInverse cfgClassic = true := by decide

/-! ### Decoding (V8), the words written out bit by bit from R47 -/

theorem test_decode_nop : decode 0b0000000000000000#16 = .ok .nop := by decide
theorem test_decode_ldkey : decode 0b0001001010000010#16 = .ok (.ldkey 0b1010000010#10) := by decide
theorem test_decode_ldkey_ends :
    decode 0b0001001000000000#16 = .ok (.ldkey 0b1000000000#10) ∧ decode 0b0001000000000001#16 = .ok (.ldkey 0b0000000001#10) ∧
    decode 0x13FF#16 = .ok (.ldkey 0b1111111111#10) := by decide
theorem test_decode_ldblk : decode 0b0010000010100101#16 = .ok (.ldblk 0b10100101#8) := by decide
theorem test_decode_ldblk_ends :
    decode 0b0010000010000000#16 = .ok (.ldblk 0b10000000#8) ∧ decode 0b0010000000000001#16 = .ok (.ldblk 0b00000001#8) := by
  decide
theorem test_decode_keygen : decode 0b0011000000000000#16 = .ok .keygen := by decide
theorem test_decode_round :
    decode 0b0100000000000000#16 = .ok (.round .k1) ∧ decode 0b0100000000000001#16 = .ok (.round .k2) := by decide
theorem test_decode_encrypt : decode 0b0101000000000000#16 = .ok .encrypt := by decide
theorem test_decode_reserved :
    [0x0001#16, 0x1682#16, 0x1A82#16, 0x21A5#16, 0x3001#16, 0x4002#16, 0x5200#16, 0x6000#16, 0xFFFF#16].all
      (fun w => match decode w with | .ok _ => false | .error _ => true) = true := by decide
theorem test_encode_words :
    encode (.ldkey 0b1010000010#10) = 0x1282#16 ∧ encode (.ldblk 0b10100101#8) = 0x20A5#16 ∧ encode (.round .k2) = 0x4001#16 := by
  decide
theorem test_decodeTableWord : decodeTableWord 16 0x20A5 = some (.ldblk 0b10100101#8) ∧ decodeTableWord 16 0x21A5 = none := by
  decide

/-! ### Units (V1 to V4) -/

theorem test_perm :
    perm 0b0001#4 p4 = .ok 0b0100#4 ∧ perm 0b1011#4 p4 = .ok 0b0111#4 ∧
    perm 0b0100#4 cfgClassic.ep.entries = .ok 0b00101000#8 ∧ perm 0b1010000010#10 cfgClassic.p10 = .ok 0b1000001100#10 ∧
    perm 0b10#2 (#v[2, 1, 2, 1, 2, 1] : Table 6) = .ok 0b010101#6 ∧ perm 0b1010#4 (#v[4] : Table 1) = .ok 0b0#1 := by decide
theorem test_perm_faults :
    perm 0b1010#4 (#v[0, 1, 2, 3] : Table 4) = .error .invalidTableIndex ∧
    perm 0b1010#4 (#v[1, 2, 3, 5] : Table 4) = .error .invalidTableIndex := by decide
theorem test_rotl :
    rotl 0b10000#5 1 = 0b00001#5 ∧ rotl 0b01100#5 1 = 0b11000#5 ∧ rotl 0b10110#5 5 = 0b10110#5 ∧
    rotl 0b10110#5 1000003 = 0b10101#5 ∧ rotl 0b10100101#8 4 = 0b01011010#8 := by decide
theorem test_xor :
    xor 0b00101000#8 0b10100100#8 = .ok 0b10001100#8 ∧ xor 0b0010#4 0b10100100#8 = .error .lengthMismatch := by decide
theorem test_sbox_addressing :
    ∀ v : BitVec 4, sbox v cfgId.sbox0 = .ok (BitVec.ofBool (v.getLsbD 2) ++ BitVec.ofBool (v.getLsbD 1)) ∧
      sbox v cfgId.sbox1 = .ok (BitVec.ofBool (v.getLsbD 3) ++ BitVec.ofBool (v.getLsbD 0)) := by decide
theorem test_sbox_classic :
    sbox 0b0001#4 cfgClassic.sbox0 = .ok 0b11#2 ∧ sbox 0b1010#4 cfgClassic.sbox1 = .ok 0b00#2 ∧
    sbox 0b1100#4 cfgClassic.sbox0 = .ok 0b01#2 ∧ sbox 0b001#3 cfgClassic.sbox0 = .error .lengthMismatch := by decide

/-! ### Key schedule and round, every named value (V5, V6, V7) -/

theorem test_ks_id :
    ksTrace cfgId 0b0111111101#10 = .ok
      { p := 0b0111111101, kl0 := 0b01111, kr0 := 0b11101, kl1 := 0b11110, kr1 := 0b11011, k1 := 0b11110110,
        kl2 := 0b11011, kr2 := 0b01111, k2 := 0b11011011 } := by decide
theorem test_ks_classic :
    ksTrace cfgClassic 0b1010000010#10 = .ok
      { p := 0b1000001100, kl0 := 0b10000, kr0 := 0b01100, kl1 := 0b00001, kr1 := 0b11000, k1 := 0b10100100,
        kl2 := 0b00100, kr2 := 0b00011, k2 := 0b01000011 } := by decide
theorem test_rf_id :
    rfTrace cfgId 0b10011010#8 0b11011011#8 = .ok
      { p := 0b10011010, l := 0b1001, r := 0b1010, e := 0b10101010#8, x := 0b01110001, s0 := 0b11, s1 := 0b01, s := 0b1101,
        q := 0b1101, l' := 0b0100, out := 0b01001010 } := by decide
theorem test_rf_classic :
    rfTrace cfgClassic 0b10101010#8 0b01011111#8 = .ok
      { p := 0b00110011, l := 0b0011, r := 0b0011, e := 0b10010110#8, x := 0b11001001, s0 := 0b01, s1 := 0b10, s := 0b0110,
        q := 0b1010, l' := 0b1001, out := 0b11001010 } := by decide
theorem test_enc2 :
    enc2 cfgId 0b10100101#8 0b01001001#8 0b00101100#8 = .ok 0b01110101#8 ∧
    enc2 cfgClassic 0b10100101#8 0b10100100#8 0b01000011#8 = .ok 0b00100101#8 ∧
    enc2 cfgClassic 0b00000001#8 0b10000000#8 0b00000001#8 = .ok 0b10000101#8 := by decide +kernel
theorem test_faults_by_table :
    rf cfgEp4 0b10100101#8 0b10100100#8 = .error .lengthMismatch ∧ rf cfgBadEp 0#8 0#8 = .error .invalidTableIndex ∧
    rf cfgBadIp 0#8 0#8 = .error .invalidTableIndex ∧ ks cfgBadP8 0#10 = .error .invalidTableIndex ∧
    ks cfgEp4 0b1010000010#10 = .ok (0b10100100#8, 0b01000011#8) := by decide

/-! ### Commands, one step each (P1 to P8) -/

theorem test_nop : answered (exec .nop (ready cfgId)) = some (ready cfgId) := by decide
theorem test_ldkey_rekeys :
    answered (exec (.ldkey 0b1111111111#10) (mk 0b1010000010#10 0b10100100#8 0b01000011#8 0#8 0x03#8 cfgClassic)) =
      some (mk 0b1111111111#10 0#8 0#8 0#8 0x01#8 cfgClassic) := by decide
theorem test_ldblk :
    answered (exec (.ldblk 0b10100101#8) (mk 0b1010000010#10 0#8 0#8 0#8 0x03#8 cfgId)) =
      some (mk 0b1010000010#10 0#8 0#8 0b10100101#8 0x07#8 cfgId) := by decide
theorem test_keygen :
    answered (exec .keygen (mk 0b1010000010#10 0#8 0#8 0#8 0x01#8 cfgClassic)) =
      some (mk 0b1010000010#10 0b10100100#8 0b01000011#8 0#8 0x03#8 cfgClassic) := by decide
theorem test_keygen_badP8 :
    answered (exec .keygen (mk 0b1010000010#10 0#8 0#8 0#8 0x01#8 cfgBadP8)) =
      some (mk 0b1010000010#10 0#8 0#8 0#8 0x19#8 cfgBadP8) := by decide
theorem test_round_k1 :
    answered (exec (.round .k1) (ready cfgClassic)) = some { ready cfgClassic with blk := 0b10100001#8 } := by decide +kernel
theorem test_round_before_keygen :
    answered (exec (.round .k1) (mk 0b1010000010#10 0#8 0#8 0b10100101#8 0x05#8 cfgClassic)) =
      some (mk 0b1010000010#10 0#8 0#8 0b10100101#8 0x5D#8 cfgClassic) := by decide
theorem test_encrypt :
    answered (exec .encrypt (ready cfgClassic)) = some { ready cfgClassic with blk := 0b00100101#8 } := by decide +kernel
theorem test_encrypt_ep4 :
    answered (exec .encrypt (ready cfgEp4)) = some { ready cfgEp4 with status := 0x2F#8 } := by decide
theorem test_step_illegal :
    answered (step ((ready cfgId).withPins [present 0x4002#16])) = some { ready cfgId with status := 0x4F#8 } := by decide
theorem test_step_halted_ignores :
    answered (step ((mk 0#10 0#8 0#8 0#8 0x5D#8 cfgId).withPins [present 0x3000#16])) =
      some (mk 0#10 0#8 0#8 0#8 0x5D#8 cfgId) := by decide
theorem test_step_reset_from_halt :
    answered (step ((mk 1#10 2#8 3#8 4#8 0x5D#8 cfgId).withPins [assertRst])) = some (mk 0#10 0#8 0#8 0#8 0x00#8 cfgId) := by decide
theorem test_fetch_word_runs_first :
    (answered (step (State.reset.withFetchWord 16 0x1282))).map State.key = some 0b1010000010#10 ∧
    (answered (step (State.reset.withFetchWord 16 0x3000))).map State.statusO = some 0x58#8 ∧
    (answered (step (State.reset.withFetchWord 16 0x6000))).map State.statusO = some 0x48#8 := by decide

/-! ### Text form (R51, R52, R103) -/

theorem test_assemble :
    assemble "LDKEY 1010000010".toList = .ok [0x1282#16] ∧ assemble "ROUND K2".toList = .ok [0x4001#16] ∧
    assemble "SDES 1010000010, 10100101".toList = .ok [0x1282#16, 0x3000#16, 0x20A5#16, 0x5000#16] := by decide
theorem test_assemble_malformed :
    assemble "LDKEY 10100000x0".toList = .error (.fault .malformedBitInput) ∧
    assemble "LDBLK 1010010".toList = .error (.fault .malformedBitInput) ∧ assemble "HALT".toList = .error .noCommand := by decide

/-! ### Witnesses: values that meet the hypotheses of each statement -/

theorem witness_RstResetsFromEveryState : ((ready cfgId).withPins [assertRst]).pins = assertRst :: [] ∧ assertRst.rst = true := by
  decide
theorem witness_LdkeyOperandIsArgFromItsTop : busField 0x13FF#16 12 4 = 0x1#4 ∧ busField 0x13FF#16 10 2 = 0#2 := by decide
theorem witness_LdblkOperandIsArgFromBitSeven :
    (busField 0x20FF#16 12 4 = 0x2#4 ∧ busField 0x20FF#16 10 2 = 0#2 ∧ busField 0x20FF#16 8 2 = 0#2) ∧
    (busField 0x2100#16 12 4 = 0x2#4 ∧ busField 0x2100#16 10 2 = 0#2 ∧ busField 0x2100#16 8 2 ≠ 0#2) := by decide
theorem witness_RoundOperandSelectsTheKey :
    (busField 0x4001#16 12 4 = 0x4#4 ∧ busField 0x4001#16 10 2 = 0#2 ∧ busField 0x4001#16 1 9 = 0#9) ∧
    (busField 0x4002#16 12 4 = 0x4#4 ∧ busField 0x4002#16 10 2 = 0#2 ∧ busField 0x4002#16 1 9 ≠ 0#9) := by decide
theorem witness_DecodedWordsEncodeBack : decode 0x4001#16 = .ok (.round .k2) := by decide
theorem witness_WordsDecodeByMatchAndMask :
    (0x1000#16, 0xFC00#16) ∈ opcodeRows ∧ 0x13FF#16 &&& 0xFC00#16 = 0x1000#16 := by decide
theorem witness_ReservedWordsAreTheFiveClasses :
    (ready cfgId).halt = false ∧ decode 0x5200#16 = .error .unusedArg := by decide
theorem witness_StepRunsDecodedCommand :
    ((ready cfgId).withPins [present 0x5000#16]).pins = present 0x5000#16 :: [] ∧ (present 0x5000#16).rst = false ∧
    (present 0x5000#16).cmdValid = true ∧ ((ready cfgId).withPins [present 0x5000#16]).halt = false ∧
    decode (present 0x5000#16).cmd = .ok .encrypt ∧ decode (present 0x6000#16).cmd = .error .opcode ∧
    (present 0x6000#16).rst = false ∧ (present 0x6000#16).cmdValid = true := by decide
theorem witness_HaltIsTerminalUntilReset :
    (mk 0#10 0#8 0#8 0#8 0x5D#8 cfgId).halt = true ∧ (∀ p ∈ [present 0x3000#16, present 0xFFFF#16], p.rst = false) ∧
    assertRst.rst = true := by decide
theorem witness_IdleCoreWaits :
    (ready cfgId).pins = [] ∧
    ((ready cfgId).withPins [{ rst := false, cmdValid := false, cmd := 0x3000#16 }]).pins =
      { rst := false, cmdValid := false, cmd := 0x3000#16 } :: [] := by decide
theorem witness_AccessMatrixIsKept :
    answered (exec .nop (ready cfgId)) = some (ready cfgId) ∧ (∀ k, Instr.nop ≠ .ldkey k) ∧ Instr.nop ≠ .keygen ∧
    (∀ b, Instr.nop ≠ .ldblk b) ∧ (∀ k, Instr.nop ≠ .round k) ∧ Instr.nop ≠ .encrypt := by
  refine ⟨by decide, ?_, ?_, ?_, ?_, ?_⟩ <;> simp
theorem witness_FaultEntryWritesErrAndHaltOnly :
    (∀ p ∈ ((ready cfgId).withPins [present 0x3000#16]).pins.head?, p.rst = false) ∧
    (answered (step (((ready cfgId).withPins [present 0x3000#16]).faultEntry .lengthMismatch))).isSome = true := by decide
theorem witness_FaultCodesAreAsListed : (ready cfgId).status = 0x07#8 := by decide
theorem witness_FaultingStepWritesNothingElse :
    ((ready cfgEp4).withPins [present 0x5000#16]).halt = false ∧
    answered (step ((ready cfgEp4).withPins [present 0x5000#16])) = some { ready cfgEp4 with status := 0x2F#8 } ∧
    ({ ready cfgEp4 with status := 0x2F#8 } : State).halt = true := by decide
theorem witness_FirstFaultIsReported :
    ((ready cfgId).halt = false ∧ decode 0x6000#16 = .error .opcode) ∧
    (mk 0#10 0#8 0#8 0#8 0x00#8 cfgBadP8).keyv = false ∧
    ((mk 0#10 0#8 0#8 0#8 0x01#8 cfgBadP8).keyv = true ∧ (mk 0#10 0#8 0#8 0#8 0x01#8 cfgBadP8).rom.keyScheduleOk = false) ∧
    (mk 0#10 0#8 0#8 0#8 0x05#8 cfgBadIp).rkv = false ∧ entriesWithin 8 (ready cfgBadIp).rom.ip = false ∧
    entriesWithin 4 (ready cfgBadEp).rom.ep.entries = false ∧ (ready cfgEp4).rom.ep.len.val ≠ 8 ∧
    entriesWithin 8 (ready cfgBadIpinv).rom.ipinv = false ∧ (ready cfgId).rom.roundOk = true := by decide
theorem witness_ConfigurationDutiesAreExact : cfgId.ok = true ∧ cfgEp4.ok = false := by decide
theorem witness_PermSelectsByTable :
    (∀ i (h : i < 4), 1 ≤ (p4[i]).toNat ∧ (p4[i]).toNat ≤ 4) ∧ (cfgBadIp.ip[5]).toNat < 1 ∧ 10 < (cfgBadP8.p8[6]).toNat := by
  decide
theorem witness_InverseTableUndoesPerm : inverseTables cfgClassic.ip cfgClassic.ipinv = true := by decide
theorem witness_RotlMovesPositions : (0 : Nat) < 5 ∧ (4 : Nat) < 5 := by decide
theorem witness_XorIsElementwiseOnEqualLengths : (4 : Nat) ≠ 8 := by decide
theorem witness_SboxReadsRowAndColumn : (3 : Nat) ≠ 4 ∧ (5 : Nat) ≠ 4 := by decide
theorem witness_KeyScheduleFaultsByTablesAlone :
    entriesWithin 10 cfgBadP10.p10 = false ∧ entriesWithin 10 cfgBadP8.p8 = false ∧
    (entriesWithin 10 cfgId.p10 = true ∧ entriesWithin 10 cfgId.p8 = true) := by decide
theorem witness_KeyHalvesRotateInTwoStages : ∃ t, ksTrace cfgClassic 0b1010000010#10 = .ok t := ⟨_, test_ks_classic⟩
theorem witness_KeygenCopiesKeyBits : (ready cfgClassic).keyv = true ∧ (ready cfgClassic).rom.keyScheduleOk = true := by decide
theorem witness_KeygenFollowsItsRule :
    (mk 0#10 0#8 0#8 0#8 0x00#8 cfgId).keyv = false ∧
    ((ready cfgBadP8).keyv = true ∧ ks (ready cfgBadP8).rom (ready cfgBadP8).key = .error .invalidTableIndex) ∧
    ((ready cfgClassic).keyv = true ∧ ks (ready cfgClassic).rom (ready cfgClassic).key = .ok (0b10100100#8, 0b01000011#8)) := by
  decide
theorem witness_RoundFollowsItsSteps : cfgClassic.roundOk = true := by decide
theorem witness_RoundFaultsInStepOrder :
    entriesWithin 8 cfgBadIp.ip = false ∧
    (entriesWithin 8 cfgBadEp.ip = true ∧ entriesWithin 4 cfgBadEp.ep.entries = false) ∧
    (entriesWithin 8 cfgEp4.ip = true ∧ entriesWithin 4 cfgEp4.ep.entries = true ∧ cfgEp4.ep.len.val ≠ 8) ∧
    (entriesWithin 8 cfgBadIpinv.ip = true ∧ entriesWithin 4 cfgBadIpinv.ep.entries = true ∧ cfgBadIpinv.ep.len.val = 8 ∧
      entriesWithin 8 cfgBadIpinv.ipinv = false) ∧ cfgId.roundOk = true := by decide
theorem witness_TwoRoundsCompose :
    rf cfgEp4 0#8 0#8 = .error .lengthMismatch ∧ rf cfgClassic 0b10100101#8 0b10100100#8 = .ok 0b10100001#8 := by decide +kernel
theorem witness_RoundFollowsItsRule :
    ((mk 0#10 0#8 0#8 0#8 0x05#8 cfgId).rkv = false ∧ (mk 0#10 0#8 0#8 0#8 0x03#8 cfgId).blkv = false) ∧
    ((ready cfgEp4).rkv = true ∧ (ready cfgEp4).blkv = true ∧
      rf (ready cfgEp4).rom (ready cfgEp4).blk ((ready cfgEp4).roundKey .k2) = .error .lengthMismatch) ∧
    ((ready cfgClassic).rkv = true ∧ (ready cfgClassic).blkv = true ∧
      rf (ready cfgClassic).rom (ready cfgClassic).blk ((ready cfgClassic).roundKey .k1) = .ok 0b10100001#8) ∧
    (ready cfgClassic).rom.roundOk = true ∧ ipInverse (ready cfgClassic).rom = true := by decide +kernel
theorem witness_EncryptFollowsItsRule :
    ((mk 0#10 0#8 0#8 0#8 0x05#8 cfgId).rkv = false ∧ (mk 0#10 0#8 0#8 0#8 0x03#8 cfgId).blkv = false) ∧
    ((ready cfgEp4).rkv = true ∧ (ready cfgEp4).blkv = true ∧
      enc2 (ready cfgEp4).rom (ready cfgEp4).blk (ready cfgEp4).k1 (ready cfgEp4).k2 = .error .lengthMismatch) ∧
    ((ready cfgClassic).rkv = true ∧ (ready cfgClassic).blkv = true ∧
      enc2 (ready cfgClassic).rom (ready cfgClassic).blk (ready cfgClassic).k1 (ready cfgClassic).k2 = .ok 0b00100101#8) := by decide +kernel
theorem witness_RoundsCompleteWhenReady :
    (ready cfgClassic).rkv = true ∧ (ready cfgClassic).blkv = true ∧ (ready cfgClassic).rom.roundOk = true := by decide
theorem witness_RoundFunctionIsItsOwnInverse : cfgClassic.roundOk = true ∧ ipInverse cfgClassic = true := by decide
theorem witness_EncryptTwiceReturnsThePlaintext :
    (ready cfgId).rkv = true ∧ (ready cfgId).blkv = true ∧ (ready cfgId).rom.roundOk = true ∧
    ipInverse (ready cfgId).rom = true := by decide
theorem witness_EncryptAltersLeftHalfOnly : cfgClassic.roundOk = true ∧ ipInverse cfgClassic = true := by decide
theorem witness_NopChangesNothing :
    busField 0x0000#16 12 4 = 0x0#4 ∧ busField 0x0001#16 12 4 = 0x0#4 ∧
    ((mk 0#10 0#8 0#8 0#8 0x48#8 cfgId).withPins [present 0x0000#16]).pins = present 0x0000#16 :: [] ∧
    (present 0x0000#16).rst = false ∧ (mk 0#10 0#8 0#8 0#8 0x48#8 cfgId).halt = true := by decide
/-- A state that meets the invariant with every valid bit set, and a step from it. -/
theorem witness_EveryStepKeepsTheRegisterInvariant :
    ((ready cfgClassic).withPins [present 0x5000#16]).Inv ∧
    answered (step ((ready cfgClassic).withPins [present 0x5000#16])) = some { ready cfgClassic with blk := 0b00100101#8 } := by
  refine ⟨⟨?_, ?_, ?_⟩, by decide +kernel⟩
  · unfold State.statusLegal; decide
  · unfold State.invalidAreZero; decide
  · unfold State.roundKeysDerived; decide
theorem witness_TablesAreNeverWritten :
    answered (step ((ready cfgId).withPins [assertRst])) = some (mk 0#10 0#8 0#8 0#8 0x00#8 cfgId) := by decide
theorem witness_OnlyLdkeyAndResetWriteTheKey :
    (answered (step ((ready cfgId).withPins [present 0x13FF#16]))).map State.key = some 0b1111111111#10 ∧
    (ready cfgId).key ≠ 0b1111111111#10 ∧
    (answered (step ((ready cfgId).withPins [assertRst]))).map State.key = some 0#10 := by decide
theorem witness_OnlyKeygenMakesRoundKeys :
    (answered (step ((mk 0b1010000010#10 0#8 0#8 0#8 0x01#8 cfgId).withPins [present 0x3000#16]))).map State.k1 ≠ some 0#8 ∧
    (answered (step ((ready cfgId).withPins [present 0x1000#16]))).map State.k1 = some 0#8 ∧
    (answered (step ((ready cfgId).withPins [assertRst]))).map State.k1 = some 0#8 ∧ (ready cfgId).k1 ≠ 0#8 := by decide
theorem witness_OnlyBlockCommandsWriteTheBlock :
    (answered (step ((ready cfgClassic).withPins [present 0x2001#16]))).map State.blk = some 0b00000001#8 ∧
    (answered (step ((ready cfgClassic).withPins [present 0x4000#16]))).map State.blk = some 0b10100001#8 ∧
    (answered (step ((ready cfgClassic).withPins [present 0x5000#16]))).map State.blk = some 0b00100101#8 ∧
    (answered (step ((ready cfgClassic).withPins [assertRst]))).map State.blk = some 0#8 := by decide +kernel
theorem witness_ValidBitsChangeByTheirCommands :
    ((ready cfgId).withPins [present 0x1000#16]).pins = present 0x1000#16 :: [] ∧ (present 0x1000#16).rst = false ∧
    (answered (step ((ready cfgId).withPins [present 0x1000#16]))).isSome = true := by decide
theorem witness_ErrIsWrittenAtMostOnceBetweenResets :
    (mk 0#10 0#8 0#8 0#8 0x5D#8 cfgId).statusLegal ∧ (mk 0#10 0#8 0#8 0#8 0x5D#8 cfgId).err ≠ 0#3 ∧
    (answered (step (mk 0#10 0#8 0#8 0#8 0x5D#8 cfgId))).isSome = true := by
  refine ⟨?_, by decide, by decide⟩
  unfold State.statusLegal
  decide
theorem witness_KeyIsNotObservable :
    Instr.encrypt ≠ .keygen ∧ (answered (exec .encrypt (ready cfgClassic))).isSome = true := by decide
theorem witness_PortsShowTheRegisters : (ready cfgId).statusLegal := by
  unfold State.statusLegal
  decide
/-- A latency of one cycle and one of three cycles, each with its number of further pin samples. -/
theorem witness_ClockedCommandRefinesTheStep :
    ((present 0x5000#16).rst = false ∧ (present 0x5000#16).cmdValid = true ∧ (ready cfgClassic).halt = false ∧
      ∀ q ∈ [present 0x1000#16, present 0x1000#16], q.rst = false) ∧
    (ticks (fun _ => 0) [present 0x5000#16] { core := ready cfgClassic, busy := none }).core.blk = 0b00100101#8 ∧
    (ticks (fun _ => 2) [present 0x5000#16, present 0x1000#16] { core := ready cfgClassic, busy := none }).core = ready cfgClassic ∧
    (ticks (fun _ => 2) [present 0x5000#16, present 0x1000#16, present 0x1000#16] { core := ready cfgClassic, busy := none }).core =
      { ready cfgClassic with blk := 0b00100101#8 } := by decide +kernel
theorem witness_ResetAbandonsTheCommandInFlight :
    assertRst.rst = true ∧ (tick (fun _ => 2) (present 0x5000#16) { core := ready cfgClassic, busy := none }).busy =
      some (0x5000#16, 1) := by decide
theorem witness_MalformedBitStringsAreRejected :
    (∃ ch ∈ ['1', 'x'], ch ≠ '0' ∧ ch ≠ '1') ∧ ['1'].length ≠ 2 ∧
    ((∀ ch ∈ ['1', '0'], ch = '0' ∨ ch = '1') ∧ ['1', '0'].length = 2) := by simp
theorem witness_StartUpOrderYieldsTheCiphertext : (mk 0#10 0#8 0#8 0#8 0x00#8 cfgClassic).halt = false ∧ cfgClassic.ok = true := by
  decide
theorem witness_HaltedRunAcceptsNoFurtherWord :
    EndsHalted [0x6000#16] (mk 0#10 0#8 0#8 0#8 0x00#8 cfgId) (mk 0#10 0#8 0#8 0#8 0x48#8 cfgId) := ⟨rfl, by decide⟩

end Sys2Proof.Tests
end

section
/-! PROOFS. What the output ports show of the registers (00_scope.md R8; 10_state.md R15, R21). -/

namespace Sys2Proof.Machine

/-- `STATUS_O` carries the seven fields' bits of STATUS, and 0 at the reserved bit 7 (R15). -/
theorem State.getLsbD_statusO (s : State) {i : Nat} (h : i < 8) :
    s.statusO.getLsbD i = (decide (i ≠ 7) && s.status.getLsbD i) := by
  have mask : ∀ j : Fin 8, (0x7F#8).getLsbD j = decide (j.val ≠ 7) := by decide
  rw [State.statusO, BitVec.getLsbD_and, mask ⟨i, h⟩, Bool.and_comm]

/-- `STATUS_O` is STATUS exactly when the reserved bit of STATUS is 0. -/
theorem State.statusO_eq_status_iff (s : State) : s.statusO = s.status ↔ s.status.getLsbD 7 = false := by
  constructor
  · intro h
    rw [← h, s.getLsbD_statusO (by decide)]
    rfl
  · intro h
    refine BitVec.eq_of_getLsbD_eq fun i hi => ?_
    rw [s.getLsbD_statusO hi]
    rcases eq_or_ne i 7 with rfl | h7
    · rw [h, Bool.and_false]
    · rw [decide_eq_true h7, Bool.true_and]

/-- Without RST an idle core is ready exactly when it is not halted (R21). -/
theorem State.cmdReady_false_iff (s : State) : s.cmdReady false = true ↔ s.halt = false := by
  simp [State.cmdReady]

/-- Settles O54: each register port by the position rule of a bus (R8), `STATUS_O` because legality clears the reserved bit. -/
theorem portsShowTheRegisters : Obligations.PortsShowTheRegisters := by
  intro s
  refine ⟨fun i hi => ⟨?_, ?_, ?_⟩, fun legal => ?_, rfl, s.cmdReady_false_iff⟩
  · exact getLsbD_eq_pos s.k1 hi
  · exact getLsbD_eq_pos s.k2 hi
  · exact getLsbD_eq_pos s.blk hi
  · obtain ⟨bit7, -, -⟩ := legal
    exact s.statusO_eq_status_iff.mpr bit7

end Sys2Proof.Machine
end

section
/-! PROOFS. The rules of the registers (10_state.md R11 to R24): for each register with its valid bit, which completing command
writes it and with what, and that fault entry and the pin samples have no part in it. The statements about the state are
assembled from these rules. -/

namespace Sys2Proof.Machine

@[simp] theorem State.validBits_setKey (s : State) (k : MasterKey) :
    (s.setKey k).keyv = s.keyv ∧ (s.setKey k).rkv = s.rkv ∧ (s.setKey k).blkv = s.blkv := ⟨rfl, rfl, rfl⟩

@[simp] theorem State.validBits_setRoundKeys (s : State) (x y : RoundKey) :
    (s.setRoundKeys x y).keyv = s.keyv ∧ (s.setRoundKeys x y).rkv = s.rkv ∧ (s.setRoundKeys x y).blkv = s.blkv :=
  ⟨rfl, rfl, rfl⟩

@[simp] theorem State.validBits_setBlk (s : State) (b : Block) :
    (s.setBlk b).keyv = s.keyv ∧ (s.setBlk b).rkv = s.rkv ∧ (s.setBlk b).blkv = s.blkv := ⟨rfl, rfl, rfl⟩

@[simp] theorem State.validBits_withPins (s : State) (ps : List Pins) :
    (s.withPins ps).keyv = s.keyv ∧ (s.withPins ps).rkv = s.rkv ∧ (s.withPins ps).blkv = s.blkv := ⟨rfl, rfl, rfl⟩

@[simp] theorem State.validBits_setKeyv (s : State) (b : Bool) :
    (s.setKeyv b).keyv = b ∧ (s.setKeyv b).rkv = s.rkv ∧ (s.setKeyv b).blkv = s.blkv :=
  ⟨getLsbD_writeBit _ _ _ (by decide), getLsbD_writeBit _ _ _ (by decide), getLsbD_writeBit _ _ _ (by decide)⟩

@[simp] theorem State.validBits_setRkv (s : State) (b : Bool) :
    (s.setRkv b).keyv = s.keyv ∧ (s.setRkv b).rkv = b ∧ (s.setRkv b).blkv = s.blkv :=
  ⟨getLsbD_writeBit _ _ _ (by decide), getLsbD_writeBit _ _ _ (by decide), getLsbD_writeBit _ _ _ (by decide)⟩

@[simp] theorem State.validBits_setBlkv (s : State) (b : Bool) :
    (s.setBlkv b).keyv = s.keyv ∧ (s.setBlkv b).rkv = s.rkv ∧ (s.setBlkv b).blkv = b :=
  ⟨getLsbD_writeBit _ _ _ (by decide), getLsbD_writeBit _ _ _ (by decide), getLsbD_writeBit _ _ _ (by decide)⟩

@[simp] theorem State.validBits_faultEntry (s : State) (c : FaultKind) :
    (s.faultEntry c).keyv = s.keyv ∧ (s.faultEntry c).rkv = s.rkv ∧ (s.faultEntry c).blkv = s.blkv :=
  ⟨getLsbD_faultEntry s c keyvBit, getLsbD_faultEntry s c rkvBit, getLsbD_faultEntry s c blkvBit⟩

theorem State.roundKey_withPins (s : State) (ps : List Pins) (sel : KeySel) :
    (s.withPins ps).roundKey sel = s.roundKey sel := by
  cases sel <;> rfl

/-- Who writes KEY and KEYV: LDKEY alone (R11, R16). -/
theorem Completes.key_cases {i : Instr} {s t : State} (h : Completes i s t) :
    (t.key = s.key ∧ t.keyv = s.keyv) ∨ (i = .ldkey t.key ∧ t.keyv = true) := by
  cases i with
  | nop | ldblk b => obtain rfl := h; exact .inl (by simp)
  | ldkey k => obtain rfl := h; exact .inr (by simp)
  | keygen => obtain ⟨-, k1, k2, -, rfl⟩ := h; exact .inl (by simp)
  | round sel | encrypt => obtain ⟨-, -, b, -, rfl⟩ := h; exact .inl ⟨rfl, rfl⟩

/-- Who writes K1, K2 and RKV: LDKEY zeroes and invalidates them, KEYGEN derives them from KEY (R12, R17). -/
theorem Completes.roundKeys_cases {i : Instr} {s t : State} (h : Completes i s t) :
    ((∀ k, i ≠ .ldkey k) ∧ (t.k1, t.k2) = (s.k1, s.k2) ∧ t.rkv = s.rkv) ∨
    ((∃ k, i = .ldkey k) ∧ t.k1 = 0#8 ∧ t.k2 = 0#8 ∧ t.rkv = false) ∨
    (i = .keygen ∧ s.keyv = true ∧ ks s.rom s.key = .ok (t.k1, t.k2) ∧ t.rkv = true) := by
  cases i with
  | nop | ldblk b => obtain rfl := h; exact .inl ⟨nofun, by simp⟩
  | ldkey k => obtain rfl := h; exact .inr (.inl ⟨⟨k, rfl⟩, by simp⟩)
  | keygen => obtain ⟨hv, k1, k2, hk, rfl⟩ := h; exact .inr (.inr ⟨rfl, hv, hk, by simp⟩)
  | round sel | encrypt => obtain ⟨-, -, b, -, rfl⟩ := h; exact .inl ⟨nofun, rfl, rfl⟩

/-- Who writes BLK and BLKV: LDBLK both; ROUND and ENCRYPT, which need a valid block, BLK alone (R13, R18). -/
theorem Completes.blk_cases {i : Instr} {s t : State} (h : Completes i s t) :
    (t.blk = s.blk ∧ t.blkv = s.blkv) ∨ (i = .ldblk t.blk ∧ t.blkv = true) ∨
    (s.blkv = true ∧ t.blkv = true ∧
      ((∃ sel, i = .round sel ∧ rf s.rom s.blk (s.roundKey sel) = .ok t.blk) ∨
        i = .encrypt ∧ enc2 s.rom s.blk s.k1 s.k2 = .ok t.blk)) := by
  cases i with
  | nop | ldkey k => obtain rfl := h; exact .inl (by simp)
  | ldblk b => obtain rfl := h; exact .inr (.inl (by simp))
  | keygen => obtain ⟨-, k1, k2, -, rfl⟩ := h; exact .inl (by simp)
  | round sel => obtain ⟨-, hv, b, hb, rfl⟩ := h; exact .inr (.inr ⟨hv, by simpa, .inl ⟨sel, rfl, hb⟩⟩)
  | encrypt => obtain ⟨-, hv, b, hb, rfl⟩ := h; exact .inr (.inr ⟨hv, by simpa, .inr ⟨rfl, hb⟩⟩)

/-- What no completing command writes: the tables, the pin samples, and STATUS above its valid bits (R19, R20, R22, R28). -/
theorem Completes.frame {i : Instr} {s t : State} (h : Completes i s t) :
    t.rom = s.rom ∧ t.pins = s.pins ∧ ∀ n, 3 ≤ n → t.status.getLsbD n = s.status.getLsbD n := by
  have other {n b : Nat} (hb : b < 3) (hn : 3 ≤ n) (st : BitVec 8) (v : Bool) :
      (writeBit st b v).getLsbD n = st.getLsbD n := by
    rw [getLsbD_writeBit _ _ _ (by omega), if_neg (by omega)]
  cases i with
  | nop => obtain rfl := h; exact ⟨rfl, rfl, fun _ _ => rfl⟩
  | ldkey k =>
    obtain rfl := h
    exact ⟨rfl, rfl, fun n hn => (other (by decide) hn _ _).trans (other (by decide) hn _ _)⟩
  | ldblk b => obtain rfl := h; exact ⟨rfl, rfl, fun n hn => other (by decide) hn _ _⟩
  | keygen => obtain ⟨-, k1, k2, -, rfl⟩ := h; exact ⟨rfl, rfl, fun n hn => other (by decide) hn _ _⟩
  | round sel | encrypt => obtain ⟨-, -, b, -, rfl⟩ := h; exact ⟨rfl, rfl, fun _ _ => rfl⟩

/-- Something read off the state in which neither the pin samples nor fault entry have a part changes in a step by RST or by
an accepted command that completes, and in no other way. -/
theorem step_change_cases {α : Type} {f : State → α} (hpins : ∀ s ps, f (s.withPins ps) = f s)
    (hfault : ∀ s c, f (s.faultEntry c) = f s) {s t : State} (h : step s = .next t) (hne : f t ≠ f s) :
    ∃ p ps, s.pins = p :: ps ∧
      (p.rst = true ∧ t = (s.withPins ps).resetCore ∨
       s.accepts p = true ∧ ∃ i, decode p.cmd = .ok i ∧ Completes i (s.withPins ps) t) := by
  rcases step_cases h with ⟨-, rfl⟩ | ⟨p, ps, hp, hrst | ⟨-, -, rfl⟩ | ⟨-, ha, i, hi, hx⟩ | ⟨-, -, -, -, rfl⟩⟩
  · exact absurd rfl hne
  · exact ⟨p, ps, hp, .inl hrst⟩
  · exact absurd (hpins s ps) hne
  · rcases exec_cases hx with hc | ⟨c, rfl⟩
    · exact ⟨p, ps, hp, .inr ⟨ha, i, hi, hc⟩⟩
    · exact absurd ((hfault _ c).trans (hpins s ps)) hne
  · exact absurd ((hfault _ _).trans (hpins s ps)) hne

/-- Settles O15, from the rule of each register; a fault writes bits 3 to 6 of STATUS alone. -/
theorem accessMatrixIsKept : Obligations.AccessMatrixIsKept := by
  intro i s t h
  rcases exec_cases h with hc | ⟨c, rfl⟩
  · obtain ⟨hrom, hpins, hstatus⟩ := hc.frame
    refine ⟨fun hi => ?_, fun hi hg => ?_, fun hi => ?_, fun hi hr he => ?_, hrom, hpins, hstatus 7 (by decide)⟩
    · exact hc.key_cases.resolve_right fun hw => hi _ hw.1
    · rcases hc.roundKeys_cases with ⟨-, hk, hv⟩ | ⟨⟨k, hk⟩, -⟩ | ⟨hk, -⟩
      · exact ⟨congrArg Prod.fst hk, congrArg Prod.snd hk, hv⟩
      · exact absurd hk (hi k)
      · exact absurd hk hg
    · rcases hc.blk_cases with ⟨-, hv⟩ | ⟨hb, -⟩ | ⟨hs, ht, -⟩
      · exact hv
      · exact absurd hb (hi _)
      · exact ht.trans hs.symm
    · rcases hc.blk_cases with ⟨hb, -⟩ | ⟨hb, -⟩ | ⟨-, -, ⟨sel, hb, -⟩ | ⟨hb, -⟩⟩
      · exact hb
      · exact absurd hb (hi _)
      · exact absurd hb (hr sel)
      · exact absurd hb he
  · obtain ⟨hkeyv, hrkv, hblkv⟩ := s.validBits_faultEntry c
    exact ⟨fun _ => ⟨rfl, hkeyv⟩, fun _ _ => ⟨rfl, rfl, hrkv⟩, fun _ => hblkv, fun _ _ _ => rfl, rfl, rfl,
      getLsbD_faultEntry s c 7⟩

/-- Settles O47: RST keeps the tables, and no command that completes writes them. -/
theorem tablesAreNeverWritten : Obligations.TablesAreNeverWritten := by
  intro s t h
  by_contra hne
  obtain ⟨p, ps, -, ⟨-, rfl⟩ | ⟨-, i, -, hc⟩⟩ := step_change_cases (f := State.rom) (fun _ _ => rfl) (fun _ _ => rfl) h hne
  · exact hne rfl
  · exact hne hc.frame.1

/-- Settles O48: of the commands that complete, LDKEY alone writes KEY. -/
theorem onlyLdkeyAndResetWriteTheKey : Obligations.OnlyLdkeyAndResetWriteTheKey := by
  intro s t h hne
  obtain ⟨p, ps, hp, ⟨hr, rfl⟩ | ⟨ha, i, hi, hc⟩⟩ :=
    step_change_cases (f := State.key) (fun _ _ => rfl) (fun _ _ => rfl) h hne
  · exact ⟨p, ps, hp, .inl ⟨hr, rfl⟩⟩
  · obtain ⟨rfl, -⟩ := hc.key_cases.resolve_left fun hk => hne hk.1
    exact ⟨p, ps, hp, .inr ⟨ha, hi⟩⟩

/-- Settles O49: of the commands that complete, LDKEY and KEYGEN alone write the round keys. -/
theorem onlyKeygenMakesRoundKeys : Obligations.OnlyKeygenMakesRoundKeys := by
  intro s t h hne
  obtain ⟨p, ps, hp, ⟨hr, rfl⟩ | ⟨ha, i, hi, hc⟩⟩ :=
    step_change_cases (f := fun u => (u.k1, u.k2)) (fun _ _ => rfl) (fun _ _ => rfl) h hne
  · exact ⟨p, ps, hp, .inl ⟨hr, rfl, rfl⟩⟩
  · refine ⟨p, ps, hp, .inr ?_⟩
    rcases hc.roundKeys_cases with ⟨-, hk, -⟩ | ⟨⟨k, rfl⟩, h1, h2, -⟩ | ⟨rfl, -, hk, -⟩
    · exact absurd hk hne
    · exact .inl ⟨ha, ⟨k, hi⟩, h1, h2⟩
    · exact .inr ⟨ha, hi, hk⟩

/-- Settles O50: of the commands that complete, LDBLK, ROUND and ENCRYPT alone write BLK. -/
theorem onlyBlockCommandsWriteTheBlock : Obligations.OnlyBlockCommandsWriteTheBlock := by
  intro s t h hne
  obtain ⟨p, ps, hp, ⟨hr, rfl⟩ | ⟨ha, i, hi, hc⟩⟩ :=
    step_change_cases (f := State.blk) (fun _ _ => rfl) (fun _ _ => rfl) h hne
  · exact ⟨p, ps, hp, .inl ⟨hr, rfl⟩⟩
  · refine ⟨p, ps, hp, .inr ⟨ha, ?_⟩⟩
    rcases hc.blk_cases with ⟨hb, -⟩ | ⟨rfl, -⟩ | ⟨-, -, ⟨sel, rfl, hb⟩ | ⟨rfl, hb⟩⟩
    · exact absurd hb hne
    · exact .inl hi
    · exact .inr (.inl ⟨sel, hi, s.roundKey_withPins ps sel ▸ hb⟩)
    · exact .inr (.inr ⟨hi, hb⟩)

/-- Settles O51: a step without RST that changes a valid bit is a command that completes, and each valid bit has its rule. -/
theorem validBitsChangeByTheirCommands : Obligations.ValidBitsChangeByTheirCommands := by
  intro s t p ps hp hrst h
  by_cases hne : (t.keyv, t.rkv, t.blkv) = (s.keyv, s.rkv, s.blkv)
  · simp only [Prod.mk.injEq] at hne
    obtain ⟨hk, hr, hb⟩ := hne
    rw [hk, hr, hb]
    exact ⟨id, id, .inl, .inl, .inl, .inl⟩
  · obtain ⟨q, qs, hq, hcases⟩ := step_change_cases (f := fun u => (u.keyv, u.rkv, u.blkv)) (by simp) (by simp) h hne
    obtain ⟨rfl, rfl⟩ := List.cons.inj (hp.symm.trans hq)
    obtain ⟨-, i, hi, hc⟩ := hcases.resolve_left fun hr => by simp [hrst] at hr
    have hkey : (s.keyv = true → t.keyv = true) ∧ (t.keyv = true → s.keyv = true ∨ ∃ k, decode p.cmd = .ok (.ldkey k)) := by
      rcases hc.key_cases with ⟨-, hv⟩ | ⟨rfl, hv⟩
      · exact ⟨hv.trans, .inl ∘ hv.symm.trans⟩
      · exact ⟨fun _ => hv, fun _ => .inr ⟨_, hi⟩⟩
    have hround : (s.rkv = true → t.rkv = true ∨ ∃ k, decode p.cmd = .ok (.ldkey k)) ∧
        (t.rkv = true → s.rkv = true ∨ decode p.cmd = .ok .keygen) := by
      rcases hc.roundKeys_cases with ⟨-, -, hv⟩ | ⟨⟨k, rfl⟩, -, -, hv⟩ | ⟨rfl, -, -, hv⟩
      · exact ⟨.inl ∘ hv.trans, .inl ∘ hv.symm.trans⟩
      · exact ⟨fun _ => .inr ⟨k, hi⟩, fun ht => absurd (hv.symm.trans ht) nofun⟩
      · exact ⟨fun _ => .inl hv, fun _ => .inr hi⟩
    have hblk : (s.blkv = true → t.blkv = true) ∧ (t.blkv = true → s.blkv = true ∨ ∃ b, decode p.cmd = .ok (.ldblk b)) := by
      rcases hc.blk_cases with ⟨-, hv⟩ | ⟨rfl, hv⟩ | ⟨hs, ht, -⟩
      · exact ⟨hv.trans, .inl ∘ hv.symm.trans⟩
      · exact ⟨fun _ => hv, fun _ => .inr ⟨_, hi⟩⟩
      · exact ⟨fun _ => ht, fun _ => .inl hs⟩
    exact ⟨hkey.1, hblk.1, hround.1, hkey.2, hblk.2, hround.2⟩

end Sys2Proof.Machine
end

section
/-! PROOFS. `MalformedBitInput` is the assembler's fault and none of the core's (60_exceptions.md R103): no command ends in it,
so `ERR` is never 3. -/

namespace Sys2Proof.Machine

/-- The computation does not end in `MalformedBitInput`. -/
def NeverMalformed {α : Type} (r : Except FaultKind α) : Prop := r ≠ .error .malformedBitInput

theorem NeverMalformed.ok {α : Type} (a : α) : NeverMalformed (.ok a) := nofun

theorem NeverMalformed.bind {α β : Type} {r : Except FaultKind α} {f : α → Except FaultKind β}
    (hr : NeverMalformed r) (hf : ∀ a, NeverMalformed (f a)) : NeverMalformed (r >>= f) := by
  cases r with
  | ok a => exact hf a
  | error c => exact fun h => hr (congrArg Except.error (Except.error.inj h))

theorem neverMalformed_perm {n m : Nat} (v : BitVec n) (t : Table m) : NeverMalformed (perm v t) := by
  unfold perm
  split <;> exact nofun

theorem neverMalformed_xor {n m : Nat} (a : BitVec n) (b : BitVec m) : NeverMalformed (xor a b) := by
  unfold xor
  split <;> exact nofun

theorem neverMalformed_sbox {n : Nat} (v : BitVec n) (a : SBoxArray) : NeverMalformed (sbox v a) := by
  unfold sbox
  split <;> exact nofun

theorem neverMalformed_ks (c : Cfg) (key : MasterKey) : NeverMalformed (ks c key) :=
  NeverMalformed.bind
    ((neverMalformed_perm _ _).bind fun _ => (neverMalformed_perm _ _).bind fun _ => (neverMalformed_perm _ _).bind fun _ => .ok _)
    fun _ => .ok _

theorem neverMalformed_rfTrace (c : Cfg) (b : Block) (k : RoundKey) : NeverMalformed (rfTrace c b k) :=
  (neverMalformed_perm _ _).bind fun _ => (neverMalformed_perm _ _).bind fun _ => (neverMalformed_xor _ _).bind fun _ =>
    (neverMalformed_sbox _ _).bind fun _ => (neverMalformed_sbox _ _).bind fun _ => (neverMalformed_perm _ _).bind fun _ =>
      (neverMalformed_xor _ _).bind fun _ => (neverMalformed_perm _ _).bind fun _ => .ok _

theorem neverMalformed_rf (c : Cfg) (b : Block) (k : RoundKey) : NeverMalformed (rf c b k) :=
  (neverMalformed_rfTrace c b k).bind fun _ => .ok _

theorem neverMalformed_enc2 (c : Cfg) (b : Block) (k1 k2 : RoundKey) : NeverMalformed (enc2 c b k1 k2) :=
  (neverMalformed_rf c b k1).bind fun b1 => neverMalformed_rf c b1 k2

theorem neverMalformed_masterKeyOperand (s : State) : NeverMalformed (masterKeyOperand s) := by
  unfold masterKeyOperand
  split <;> exact nofun

theorem neverMalformed_blkOperand (s : State) : NeverMalformed (blkOperand s) := by
  unfold blkOperand
  split <;> exact nofun

theorem neverMalformed_writes (i : Instr) (s : State) : NeverMalformed (writes i s) := by
  cases i with
  | nop | ldkey k | ldblk b => exact .ok _
  | keygen => exact (neverMalformed_masterKeyOperand s).bind fun key => (neverMalformed_ks s.rom key).bind fun _ => .ok _
  | round sel => exact (neverMalformed_blkOperand s).bind fun b => (neverMalformed_rf s.rom b _).bind fun _ => .ok _
  | encrypt => exact (neverMalformed_blkOperand s).bind fun b => (neverMalformed_enc2 s.rom b _ _).bind fun _ => .ok _

/-- How a command ends, with the fault kinds that the core itself raises. -/
theorem exec_cases_of_core {i : Instr} {s t : State} (h : exec i s = .next t) :
    Completes i s t ∨ ∃ c, c ≠ .malformedBitInput ∧ t = s.faultEntry c := by
  rw [exec_eq_finish] at h
  rcases finish_eq_next.mp h with hw | ⟨c, hw, rfl⟩
  · exact .inl (completes_of_writes hw)
  · exact .inr ⟨c, fun hc => neverMalformed_writes i s (hc ▸ hw), rfl⟩

end Sys2Proof.Machine
end

section
/-! PROOFS. The invariant of the registers (10_state.md R15 to R20, R26): it holds after reset, and a command keeps it whether
it completes or faults, so every step does. -/

namespace Sys2Proof.Machine

theorem inv_resetWith (rom : Cfg) (ps : List Pins) : (State.resetWith rom ps).Inv := by
  refine ⟨?_, ⟨fun _ => rfl, fun _ => ⟨rfl, rfl⟩, fun _ => rfl⟩, fun hv => ?_⟩
  · simp [State.statusLegal, State.halt, State.err, State.resetWith]
  · simp [State.rkv, State.resetWith] at hv

theorem inv_withPins {s : State} (h : s.Inv) (ps : List Pins) : (s.withPins ps).Inv := h

/-- Legality speaks of STATUS bits 3 to 7 alone. -/
theorem State.statusLegal.congr {s t : State} (h : ∀ n, 3 ≤ n → t.status.getLsbD n = s.status.getLsbD n)
    (hs : s.statusLegal) : t.statusLegal := by
  have hhalt : t.halt = s.halt := h haltBit le_rfl
  have herr : t.err = s.err := err_congr fun n hn _ => h n (by omega)
  obtain ⟨hbit7, hiff, hcodes⟩ := hs
  exact ⟨(h 7 (by decide)).trans hbit7, by rw [hhalt, herr]; exact hiff, by rw [herr]; exact hcodes⟩

/-- The codes that the core writes are the legal ones, and they are written together with `HALT` (R108). -/
theorem State.statusLegal.faultEntry {s : State} (hs : s.statusLegal) {c : FaultKind} (hc : c ≠ .malformedBitInput) :
    (s.faultEntry c).statusLegal := by
  obtain ⟨herr, hhalt, -⟩ := faultedWith_faultEntry s c
  have hcodes : c.code ≠ 0#3 ∧ c.code ≠ 3#3 ∧ c.code ≠ 6#3 ∧ c.code ≠ 7#3 := by
    cases c with
    | malformedBitInput => exact absurd rfl hc
    | invalidTableIndex | lengthMismatch | illegalCommand | operandNotReady => decide
  obtain ⟨hzero, hunused⟩ := hcodes
  refine ⟨(getLsbD_faultEntry s c 7).trans hs.1, ?_, ?_⟩
  · rw [herr]
    exact iff_of_true hhalt hzero
  · rw [herr]
    exact hunused

/-- Fault entry writes no register, no valid bit and no table, which is all that the rest of the invariant speaks of. -/
theorem inv_faultEntry {s : State} (hs : s.Inv) {c : FaultKind} (hc : c ≠ .malformedBitInput) : (s.faultEntry c).Inv := by
  obtain ⟨hlegal, hzero, hderived⟩ := hs
  obtain ⟨hkeyv, hrkv, hblkv⟩ := s.validBits_faultEntry c
  refine ⟨hlegal.faultEntry hc, ?_, ?_⟩
  · rw [State.invalidAreZero, hkeyv, hrkv, hblkv]
    exact hzero
  · rw [State.roundKeysDerived, hkeyv, hrkv]
    exact hderived

/-- A command that writes a register either sets its valid bit or, LDKEY on the round keys, clears it and writes zeros. -/
theorem Completes.invalidAreZero {i : Instr} {s t : State} (hc : Completes i s t) (hs : s.invalidAreZero) :
    t.invalidAreZero := by
  obtain ⟨hkey, hround, hblk⟩ := hs
  refine ⟨fun hv => ?_, fun hv => ?_, fun hv => ?_⟩
  · rcases hc.key_cases with ⟨hk, hkv⟩ | ⟨-, ht⟩
    · exact hk.trans (hkey (hkv.symm.trans hv))
    · exact absurd (ht.symm.trans hv) nofun
  · rcases hc.roundKeys_cases with ⟨-, hk, hkv⟩ | ⟨-, h1, h2, -⟩ | ⟨-, -, -, ht⟩
    · obtain ⟨h1, h2⟩ := Prod.mk.inj hk
      rw [h1, h2]
      exact hround (hkv.symm.trans hv)
    · exact ⟨h1, h2⟩
    · exact absurd (ht.symm.trans hv) nofun
  · rcases hc.blk_cases with ⟨hb, hbv⟩ | ⟨-, ht⟩ | ⟨-, ht, -⟩
    · exact hb.trans (hblk (hbv.symm.trans hv))
    · exact absurd (ht.symm.trans hv) nofun
    · exact absurd (ht.symm.trans hv) nofun

/-- A command leaves KEY and the round keys together, or invalidates the round keys, or derives them from KEY. -/
theorem Completes.roundKeysDerived {i : Instr} {s t : State} (hc : Completes i s t) (hs : s.roundKeysDerived) :
    t.roundKeysDerived := by
  intro hv
  have hrom : t.rom = s.rom := hc.frame.1
  rcases hc.roundKeys_cases with ⟨hi, hk, hkv⟩ | ⟨-, -, -, hf⟩ | ⟨rfl, hkeyv, hk, -⟩
  · obtain ⟨hkey, hkeyv⟩ := hc.key_cases.resolve_right fun hw => hi _ hw.1
    rw [hrom, hkey, hkeyv, hk]
    exact hs (hkv.symm.trans hv)
  · exact absurd (hf.symm.trans hv) nofun
  · obtain ⟨hkey, hkv⟩ := hc.key_cases.resolve_right nofun
    rw [hrom, hkey, hkv]
    exact ⟨hkeyv, hk⟩

/-- A command keeps the invariant, whether it completes or faults. -/
theorem exec_keeps_inv {i : Instr} {s t : State} (hs : s.Inv) (h : exec i s = .next t) : t.Inv := by
  rcases exec_cases_of_core h with hc | ⟨c, hcode, rfl⟩
  · obtain ⟨-, -, hstatus⟩ := hc.frame
    obtain ⟨hlegal, hzero, hderived⟩ := hs
    exact ⟨hlegal.congr hstatus, hc.invalidAreZero hzero, hc.roundKeysDerived hderived⟩
  · exact inv_faultEntry hs hcode

/-- Settles O45: the reset state is all zeros. -/
theorem resetMeetsTheRegisterInvariant : Obligations.ResetMeetsTheRegisterInvariant := inv_resetWith _ _

/-- Settles O46, over what a step can do: wait, reset, pass over a sample, run a command, or reject a reserved word. -/
theorem everyStepKeepsTheRegisterInvariant : Obligations.EveryStepKeepsTheRegisterInvariant := by
  intro s t hs h
  rcases step_cases h with ⟨-, rfl⟩ | ⟨p, ps, -, ⟨-, rfl⟩ | ⟨-, -, rfl⟩ | ⟨-, -, i, -, hx⟩ | ⟨-, -, e, -, rfl⟩⟩
  · exact hs
  · exact inv_resetWith _ _
  · exact inv_withPins hs ps
  · exact exec_keeps_inv (inv_withPins hs ps) hx
  · exact inv_faultEntry (inv_withPins hs ps) nofun

theorem State.not_accepts_of_halt {s : State} (h : s.halt = true) (p : Pins) : s.accepts p = false := by
  simp [State.accepts, State.cmdReady, h]

/-- Settles O52: with a legal STATUS a code in `ERR` means that the core is halted, so that it accepts no command. -/
theorem errIsWrittenAtMostOnceBetweenResets : Obligations.ErrIsWrittenAtMostOnceBetweenResets := by
  intro s t hlegal herr h hrst
  obtain ⟨-, hiff, -⟩ := hlegal
  have hhalt : s.halt = true := hiff.mpr herr
  rcases step_cases h with ⟨-, rfl⟩ | ⟨p, ps, hp, ⟨hr, -⟩ | ⟨-, -, rfl⟩ | ⟨-, ha, -⟩ | ⟨-, ha, -⟩⟩
  · exact ⟨rfl, hhalt⟩
  · exact absurd hr (by simp [hrst p ps hp])
  · exact ⟨rfl, hhalt⟩
  · exact absurd ha (by simp [State.not_accepts_of_halt hhalt p])
  · exact absurd ha (by simp [State.not_accepts_of_halt hhalt p])

end Sys2Proof.Machine
end

section
/-! PROOFS. KEY has no part in what a command but KEYGEN does (10_state.md R11; 20_memory.md R35). -/

namespace Sys2Proof.Machine

/-- The writes of a command but KEYGEN, with another value in KEY, are the same but for KEY itself. -/
theorem writes_setKey {i : Instr} (hi : i ≠ .keygen) (s : State) (k : MasterKey) :
    ∃ k', writes i (s.setKey k) = (writes i s).map (·.setKey k') := by
  cases i with
  | nop | ldblk b => exact ⟨k, rfl⟩
  | ldkey k' => exact ⟨k', rfl⟩
  | keygen => exact absurd rfl hi
  | round sel =>
    refine ⟨k, ?_⟩
    have hsel : (s.setKey k).roundKey sel = s.roundKey sel := by cases sel <;> rfl
    simp only [writes, roundWrites_eq, hsel, State.validBits_setKey, State.rom_setKey, State.blk_setKey]
    split
    · cases rf s.rom s.blk (s.roundKey sel) <;> rfl
    · rfl
  | encrypt =>
    refine ⟨k, ?_⟩
    simp only [writes, encryptWrites_eq, State.validBits_setKey, State.rom_setKey, State.blk_setKey, State.k1_setKey,
      State.k2_setKey]
    split
    · cases enc2 s.rom s.blk s.k1 s.k2 <;> rfl
    · rfl

/-- The same of what the command answers: fault entry does not touch KEY. -/
theorem exec_setKey {i : Instr} (hi : i ≠ .keygen) {s t : State} (h : exec i s = .next t) (k : MasterKey) :
    ∃ k', exec i (s.setKey k) = .next (t.setKey k') := by
  obtain ⟨k', hk⟩ := writes_setKey hi s k
  rw [exec_eq_finish] at h ⊢
  rw [hk]
  rcases finish_eq_next.mp h with hw | ⟨c, hw, rfl⟩
  · rw [hw]
    exact ⟨k', rfl⟩
  · rw [hw]
    exact ⟨k, rfl⟩

/-- Settles O53: no port shows KEY. -/
theorem keyIsNotObservable : Obligations.KeyIsNotObservable := by
  intro i s t k hi h
  obtain ⟨k', hk⟩ := exec_setKey hi h k
  exact ⟨t.setKey k', hk, rfl, rfl, fun _ => rfl⟩

end Sys2Proof.Machine
end

section
/-! PROOFS. The decoder and the encoder (30_encoding.md R40 to R48, R53): an equation of `decode` for each operation code, the
operands as fields of the word, and from them that `decode` and `encode` undo one another. -/

namespace Sys2Proof

open Sys2Proof.Machine

/-- A word is the word of its fields. -/
theorem wordOf_fieldsOf (w : CmdWord) : wordOf (fieldsOf w) = w := by
  refine BitVec.eq_of_getLsbD_eq fun i hi => ?_
  rw [getLsbD_wordOf]
  simp only [fieldsOf, getLsbD_busField]
  split_ifs with h10 h12
  · simp [h10]
  · simp [show i - 10 < 2 by omega, show 10 + (i - 10) = i by omega]
  · simp [show i - 12 < 4 by omega, show 12 + (i - 12) = i by omega]

/-- A word encodes a command exactly when its fields are the command's (R40, R47). -/
theorem encode_eq_iff {i : Instr} {w : CmdWord} :
    encode i = w ↔ busField w 12 4 = opOf i ∧ busField w 10 2 = 0#2 ∧ busField w 0 10 = argOf i := by
  constructor
  · rintro rfl
    exact Fields.mk.inj (fieldsOf_encode i)
  · rintro ⟨hop, hrsv, harg⟩
    rw [encode, ← hop, ← hrsv, ← harg]
    exact wordOf_fieldsOf w

/-! ### The operands as fields of the word -/

/-- The upper part of a field is zero exactly when the field is its lower part, zero-extended. -/
theorem busField_eq_zero_iff {n : Nat} (w : BitVec n) (lo len : Nat) :
    busField w lo len = 0#len ↔ busField w 0 (lo + len) = (busField w 0 lo).setWidth (lo + len) := by
  constructor <;> intro h <;> refine BitVec.eq_of_getLsbD_eq fun i hi => ?_
  · rw [BitVec.getLsbD_setWidth, getLsbD_busField, getLsbD_busField, Nat.zero_add]
    by_cases hlo : i < lo
    · simp [hi, hlo]
    · have hzero := congrArg (BitVec.getLsbD · (i - lo)) h
      simp only [getLsbD_busField, show i - lo < len by omega, show lo + (i - lo) = i by omega] at hzero
      simpa [hi, hlo] using hzero
  · have hbit := congrArg (BitVec.getLsbD · (lo + i)) h
    simp only [BitVec.getLsbD_setWidth, getLsbD_busField] at hbit
    simpa [getLsbD_busField, -BitVec.getLsbD_eq_getElem, hi] using hbit

/-- A field that is a narrower vector, zero-extended, holds that vector in its lower part. -/
theorem busField_zero_eq_of_setWidth {n m len : Nat} {w : BitVec n} {v : BitVec m} (hm : m ≤ len)
    (h : busField w 0 len = v.setWidth len) : busField w 0 m = v := by
  refine BitVec.eq_of_getLsbD_eq fun i hi => ?_
  have hbit := congrArg (BitVec.getLsbD · i) h
  simp only [getLsbD_busField, BitVec.getLsbD_setWidth, hi.trans_le hm, decide_true, Bool.true_and] at hbit
  rw [getLsbD_busField, hbit, decide_eq_true hi, Bool.true_and]

/-- LDKEY's operand is the field of ten bits that carries it (R44). -/
theorem keyOperand_eq_busField (w : CmdWord) : keyOperand w = busField w 0 10 := by
  refine eq_of_pos fun i hi => ?_
  rw [keyOperand, pos_ofPos_of_lt _ hi, ← getLsbD_eq_pos _ hi, getLsbD_busField]
  simp [show 10 - 1 - i < 10 by omega]

/-- LDBLK's operand is the field of eight bits that carries it (R45). -/
theorem blockOperand_eq_busField (w : CmdWord) : blockOperand w = busField w 0 8 := by
  refine eq_of_pos fun i hi => ?_
  rw [blockOperand, pos_ofPos_of_lt _ hi, ← getLsbD_eq_pos _ hi, getLsbD_busField]
  simp [show 8 - 1 - i < 8 by omega]

/-- The argument of LDBLK is its operand, when the two bits above it are zero (R45). -/
theorem arg_eq_argOf_ldblk {w : CmdWord} (h : busField w 8 2 = 0#2) :
    busField w 0 10 = argOf (.ldblk (blockOperand w)) := by
  rw [blockOperand_eq_busField]
  exact (busField_eq_zero_iff w 8 2).mp h

/-- ROUND's select is the field of one bit that carries it (R46). -/
theorem argOf_round_selOperand (w : CmdWord) : argOf (.round (selOperand w)) = (busField w 0 1).setWidth 10 := by
  have bit0 : busField w 0 1 = BitVec.ofBool (w.getLsbD 0) := by
    refine BitVec.eq_of_getLsbD_eq fun i hi => ?_
    obtain rfl : i = 0 := by omega
    rw [getLsbD_busField, BitVec.getLsbD_ofBool]
    rfl
  rw [bit0, selOperand]
  cases w.getLsbD 0 <;> rfl

/-- The argument of ROUND is that of its select, when the nine bits above it are zero (R46). -/
theorem arg_eq_argOf_round {w : CmdWord} (h : busField w 1 9 = 0#9) :
    busField w 0 10 = argOf (.round (selOperand w)) :=
  ((busField_eq_zero_iff w 1 9).mp h).trans (argOf_round_selOperand w).symm

/-! ### The decoder by operation code -/

section

variable {w : CmdWord}

theorem decode_rsv (hrsv : busField w 10 2 ≠ 0#2) : decode w = .error .rsvNotZero := if_pos hrsv

variable (hrsv : busField w 10 2 = 0#2)

include hrsv

theorem decode_op0 (hop : busField w 12 4 = 0x0#4) :
    decode w = if busField w 0 10 = 0#10 then .ok .nop else .error .unusedArg := by
  simp [decode, hrsv, hop]

theorem decode_op1 (hop : busField w 12 4 = 0x1#4) : decode w = .ok (.ldkey (keyOperand w)) := by
  simp [decode, hrsv, hop]

theorem decode_op2 (hop : busField w 12 4 = 0x2#4) :
    decode w = if busField w 8 2 = 0#2 then .ok (.ldblk (blockOperand w)) else .error .unusedArg := by
  simp [decode, hrsv, hop]

theorem decode_op3 (hop : busField w 12 4 = 0x3#4) :
    decode w = if busField w 0 10 = 0#10 then .ok .keygen else .error .unusedArg := by
  simp [decode, hrsv, hop]

theorem decode_op4 (hop : busField w 12 4 = 0x4#4) :
    decode w = if busField w 1 9 = 0#9 then .ok (.round (selOperand w)) else .error .unusedArg := by
  simp [decode, hrsv, hop]

theorem decode_op5 (hop : busField w 12 4 = 0x5#4) :
    decode w = if busField w 0 10 = 0#10 then .ok .encrypt else .error .unusedArg := by
  simp [decode, hrsv, hop]

theorem decode_op_ge_six (hop : 6 ≤ (busField w 12 4).toNat) : decode w = .error .opcode := by
  obtain ⟨n, hn⟩ := Nat.exists_eq_add_of_le' hop
  rw [decode, if_neg (not_not.mpr hrsv), hn]
  rfl

end

/-- The operation codes: one for each row of the opcode map, and the reserved ones (R47, R48 (a)). -/
theorem opcode_cases (op : BitVec 4) :
    op = 0x0#4 ∨ op = 0x1#4 ∨ op = 0x2#4 ∨ op = 0x3#4 ∨ op = 0x4#4 ∨ op = 0x5#4 ∨ 6 ≤ op.toNat := by
  revert op
  decide

/-- A decoder's test that passes has taken its command. -/
theorem ite_ok_error_eq_ok_iff {ε α : Type} {c : Prop} [Decidable c] {e : ε} {a b : α} :
    (if c then Except.ok a else Except.error e) = Except.ok b ↔ c ∧ a = b := by
  split_ifs with h <;> simp [h]

/-- Settles O6: a legal word has the operation code, the zero reserved field and the argument of the command it decodes to. -/
theorem decodedWordsEncodeBack : Obligations.DecodedWordsEncodeBack := by
  intro w i h
  by_cases hrsv : busField w 10 2 = 0#2
  · rcases opcode_cases (busField w 12 4) with hop | hop | hop | hop | hop | hop | hop
    · obtain ⟨harg, rfl⟩ := ite_ok_error_eq_ok_iff.mp ((decode_op0 hrsv hop).symm.trans h)
      exact encode_eq_iff.mpr ⟨hop, hrsv, harg⟩
    · obtain rfl := Except.ok.inj ((decode_op1 hrsv hop).symm.trans h)
      exact encode_eq_iff.mpr ⟨hop, hrsv, (keyOperand_eq_busField w).symm⟩
    · obtain ⟨harg, rfl⟩ := ite_ok_error_eq_ok_iff.mp ((decode_op2 hrsv hop).symm.trans h)
      exact encode_eq_iff.mpr ⟨hop, hrsv, arg_eq_argOf_ldblk harg⟩
    · obtain ⟨harg, rfl⟩ := ite_ok_error_eq_ok_iff.mp ((decode_op3 hrsv hop).symm.trans h)
      exact encode_eq_iff.mpr ⟨hop, hrsv, harg⟩
    · obtain ⟨harg, rfl⟩ := ite_ok_error_eq_ok_iff.mp ((decode_op4 hrsv hop).symm.trans h)
      exact encode_eq_iff.mpr ⟨hop, hrsv, arg_eq_argOf_round harg⟩
    · obtain ⟨harg, rfl⟩ := ite_ok_error_eq_ok_iff.mp ((decode_op5 hrsv hop).symm.trans h)
      exact encode_eq_iff.mpr ⟨hop, hrsv, harg⟩
    · exact absurd ((decode_op_ge_six hrsv hop).symm.trans h) nofun
  · exact absurd ((decode_rsv hrsv).symm.trans h) nofun

/-- Settles O5: the fields of the word are the command's, so its operation code and its argument pass the decoder's tests, and
the operand is read back from the argument. -/
theorem encodedCommandsDecodeBack : Obligations.EncodedCommandsDecodeBack := by
  intro i
  obtain ⟨hop, hrsv, harg⟩ := encode_eq_iff.mp (rfl : encode i = encode i)
  cases i with
  | nop => exact (decode_op0 hrsv hop).trans (if_pos harg)
  | ldkey k => rw [decode_op1 hrsv hop, keyOperand_eq_busField, harg, argOf]
  | ldblk b =>
    have hb : busField (encode (.ldblk b)) 0 8 = b := busField_zero_eq_of_setWidth (by decide) harg
    have hhigh : busField (encode (.ldblk b)) 8 2 = 0#2 := by
      rw [busField_eq_zero_iff, hb]
      exact harg
    rw [decode_op2 hrsv hop, if_pos hhigh, blockOperand_eq_busField, hb]
  | keygen => exact (decode_op3 hrsv hop).trans (if_pos harg)
  | round sel => cases sel <;> rfl
  | encrypt => exact (decode_op5 hrsv hop).trans (if_pos harg)

end Sys2Proof
end

section
/-! PROOFS. The opcode map by match and mask, the reserved words and their number (30_encoding.md R44 to R48), and the words that
the test vectors list. -/

namespace Sys2Proof

open Sys2Proof.Machine

/-- Decoding is the inverse of encoding, on every word (R47, R53). -/
theorem decode_eq_ok_iff {w : CmdWord} {i : Instr} : decode w = .ok i ↔ encode i = w := by
  constructor
  · exact decodedWordsEncodeBack w i
  · rintro rfl
    exact encodedCommandsDecodeBack i

theorem encode_injective : Function.Injective encode := fun i j h =>
  Except.ok.inj ((encodedCommandsDecodeBack i).symm.trans (h ▸ encodedCommandsDecodeBack j))

/-! ### Rows of the opcode map -/

/-- A command's word is its operation code above its argument (R40, R42). -/
theorem encode_eq_or (i : Instr) : encode i = (opOf i ++ 0#12) ||| (argOf i).setWidth 16 := by
  refine BitVec.eq_of_getLsbD_eq fun n hn => ?_
  rw [encode, getLsbD_wordOf, BitVec.getLsbD_or, BitVec.getLsbD_append, BitVec.getLsbD_setWidth, decide_eq_true hn,
    Bool.true_and]
  by_cases h12 : n < 12
  · by_cases h10 : n < 10
    · simp [h10, h12]
    · simp [h10, h12, BitVec.getLsbD_of_ge _ _ (Nat.not_lt.mp h10)]
  · have h10 : 10 ≤ n := by omega
    simp [h12, Nat.not_lt.mpr h10, BitVec.getLsbD_of_ge _ _ h10]

/-- The mask of the low `n` bits. -/
theorem getLsbD_lowMask (n : Nat) {i : Nat} (hi : i < 16) : (BitVec.ofNat 16 (2 ^ n - 1)).getLsbD i = decide (i < n) := by
  rw [BitVec.getLsbD_ofNat, Nat.testBit_two_pow_sub_one, decide_eq_true hi, Bool.true_and]

/-- The low bits of a word, cut out by a mask, are its bus field. -/
theorem setWidth_busField_zero (w : CmdWord) (n : Nat) :
    (busField w 0 n).setWidth 16 = w &&& BitVec.ofNat 16 (2 ^ n - 1) := by
  refine BitVec.eq_of_getLsbD_eq fun i hi => ?_
  rw [BitVec.getLsbD_setWidth, getLsbD_busField, BitVec.getLsbD_and, getLsbD_lowMask n hi]
  simp [hi, Bool.and_comm]

/-- A word matches under a mask exactly when it is the match with its own bits outside the mask. -/
theorem and_eq_iff_or_eq {n : Nat} {w mask m : BitVec n} (hm : m &&& mask = m) :
    w &&& mask = m ↔ m ||| (w &&& ~~~mask) = w := by
  constructor
  · rintro rfl
    rw [← BitVec.and_or_distrib_left]
    simp
  · intro h
    rw [← h, BitVec.and_or_distrib_right, hm, BitVec.and_assoc]
    simp

/-- A row of the opcode map whose operand is the low `n` bits: its match is the operation code, and its mask leaves the operand
out (R47). -/
theorem match_iff_decode {w mask m : CmdWord} {i : Instr} {n : Nat} (op : BitVec 4) (hop : opOf i = op) (hm : m = op ++ 0#12)
    (hn : n ≤ 10) (harg : argOf i = (busField w 0 n).setWidth 10) (hmask : ~~~mask = BitVec.ofNat 16 (2 ^ n - 1)) :
    w &&& mask = m ↔ decode w = .ok i := by
  have inside : m &&& mask = m := by
    rw [← BitVec.not_not (b := mask), hmask, hm]
    refine BitVec.eq_of_getLsbD_eq fun j hj => ?_
    rw [BitVec.getLsbD_and, BitVec.getLsbD_append, BitVec.getLsbD_not, getLsbD_lowMask n hj]
    by_cases hj12 : j < 12
    · simp [hj12]
    · simp [hj12, hj, show ¬ j < n by omega]
  have operand : (argOf i).setWidth 16 = w &&& ~~~mask := by
    rw [hmask, ← setWidth_busField_zero, harg]
    exact BitVec.setWidth_setWidth (by omega)
  rw [decode_eq_ok_iff, encode_eq_or, operand, hop, ← hm, and_eq_iff_or_eq inside]

/-- No word matches two rows, since every mask keeps the operation code and no two rows share one (R41, R47). -/
theorem opcodeRows_disjoint {w : CmdWord} {a b : CmdWord × CmdWord} (ha : a ∈ opcodeRows) (hb : b ∈ opcodeRows)
    (hwa : w &&& a.2 = a.1) (hwb : w &&& b.2 = b.1) : a = b := by
  have keepsOp : ∀ r ∈ opcodeRows, r.2 &&& 0xF000#16 = 0xF000#16 := by simp [opcodeRows]
  have distinct : ∀ r ∈ opcodeRows, ∀ q ∈ opcodeRows, r.1 &&& 0xF000#16 = q.1 &&& 0xF000#16 → r = q := by simp [opcodeRows]
  refine distinct a ha b hb ?_
  rw [← hwa, ← hwb, BitVec.and_assoc, BitVec.and_assoc, keepsOp a ha, keepsOp b hb]

/-- Settles O3: the six rows have operands of 0, 10, 8, 0, 1 and 0 bits. -/
theorem wordsDecodeByMatchAndMask : Obligations.WordsDecodeByMatchAndMask := by
  intro w
  have noOperand : (0#10 : BitVec 10) = (busField w 0 0).setWidth 10 := by
    rw [BitVec.eq_nil (busField w 0 0)]
    rfl
  refine ⟨?_, ?_, ?_, ?_, ?_, ?_, fun a ha b hb => opcodeRows_disjoint ha hb⟩
  · exact match_iff_decode 0x0#4 rfl rfl (by decide) noOperand rfl
  · exact match_iff_decode 0x1#4 rfl rfl le_rfl (BitVec.setWidth_eq _).symm rfl
  · exact match_iff_decode 0x2#4 rfl rfl (by decide) rfl rfl
  · exact match_iff_decode 0x3#4 rfl rfl (by decide) noOperand rfl
  · exact match_iff_decode 0x4#4 rfl rfl (by decide) (argOf_round_selOperand w) rfl
  · exact match_iff_decode 0x5#4 rfl rfl (by decide) noOperand rfl

/-! ### The operands -/

/-- Settles O8: position `i` of a vector is bit `9 - i` of the bus that carries it. -/
theorem ldkeyOperandIsArgFromItsTop : Obligations.LdkeyOperandIsArgFromItsTop := by
  refine ⟨fun w hop hrsv => ⟨keyOperand w, decode_op1 hrsv hop, fun i hi => ?_⟩, by decide⟩
  rw [keyOperand_eq_busField, ← getLsbD_eq_pos _ hi]

/-- Settles O9: the operand is given by its positions, and the decoder's one test is that of `ARG[9:8]`. -/
theorem ldblkOperandIsArgFromBitSeven : Obligations.LdblkOperandIsArgFromBitSeven := by
  refine ⟨fun w hop hrsv => ⟨fun hhigh => ?_, fun hhigh => ?_⟩, by decide⟩
  · exact ⟨blockOperand w, (decode_op2 hrsv hop).trans (if_pos hhigh), fun i hi => pos_ofPos_of_lt _ hi⟩
  · exact ⟨.unusedArg, (decode_op2 hrsv hop).trans (if_neg hhigh)⟩

/-- Settles O10: the decoder's one test is that of `ARG[9:1]`. -/
theorem roundOperandSelectsTheKey : Obligations.RoundOperandSelectsTheKey := by
  refine fun w hop hrsv => ⟨fun hhigh => ?_, fun hhigh => ?_⟩
  · refine ⟨selOperand w, (decode_op4 hrsv hop).trans (if_pos hhigh), fun s => ?_⟩
    rw [selOperand]
    split <;> rfl
  · exact ⟨.unusedArg, (decode_op4 hrsv hop).trans (if_neg hhigh)⟩

/-- Settles O7: eight words are encoded commands, and three fail one of the decoder's tests. -/
theorem listedWordsDecode : Obligations.ListedWordsDecode := by
  unfold Obligations.ListedWordsDecode
  decide

/-! ### The reserved words -/

/-- A decoder's test that fails has taken its reason. -/
theorem exists_ite_ok_error_eq_error_iff {ε α : Type} {c : Prop} [Decidable c] {e : ε} {a : α} :
    (∃ e', (if c then Except.ok a else Except.error e) = Except.error e') ↔ ¬c := by
  split_ifs with h <;> simp [h]

/-- The reserved words, by operation code (R48). -/
theorem exists_decode_error_iff (w : CmdWord) : (∃ e, decode w = .error e) ↔
    (6 ≤ (busField w 12 4).toNat ∨ busField w 10 2 ≠ 0#2 ∨
      (busField w 12 4 ∈ [0x0#4, 0x3#4, 0x5#4] ∧ busField w 0 10 ≠ 0#10) ∨
      (busField w 12 4 = 0x2#4 ∧ busField w 8 2 ≠ 0#2) ∨ (busField w 12 4 = 0x4#4 ∧ busField w 1 9 ≠ 0#9)) := by
  by_cases hrsv : busField w 10 2 = 0#2
  · rcases opcode_cases (busField w 12 4) with hop | hop | hop | hop | hop | hop | hop
    · rw [decode_op0 hrsv hop, exists_ite_ok_error_eq_error_iff]
      simp [hop, hrsv]
    · rw [decode_op1 hrsv hop]
      simp [hop, hrsv]
    · rw [decode_op2 hrsv hop, exists_ite_ok_error_eq_error_iff]
      simp [hop, hrsv]
    · rw [decode_op3 hrsv hop, exists_ite_ok_error_eq_error_iff]
      simp [hop, hrsv]
    · rw [decode_op4 hrsv hop, exists_ite_ok_error_eq_error_iff]
      simp [hop, hrsv]
    · rw [decode_op5 hrsv hop, exists_ite_ok_error_eq_error_iff]
      simp [hop, hrsv]
    · exact iff_of_true ⟨_, decode_op_ge_six hrsv hop⟩ (.inl hop)
  · exact iff_of_true ⟨_, decode_rsv hrsv⟩ (.inr (.inl hrsv))

/-- The commands by operand: a master key, a block, or one of the five words without a bit vector. -/
def instrEquiv : Instr ≃ MasterKey ⊕ Block ⊕ Fin 5 where
  toFun
    | .ldkey k => .inl k
    | .ldblk b => .inr (.inl b)
    | .nop => .inr (.inr 0)
    | .keygen => .inr (.inr 1)
    | .round .k1 => .inr (.inr 2)
    | .round .k2 => .inr (.inr 3)
    | .encrypt => .inr (.inr 4)
  invFun
    | .inl k => .ldkey k
    | .inr (.inl b) => .ldblk b
    | .inr (.inr 0) => .nop
    | .inr (.inr 1) => .keygen
    | .inr (.inr 2) => .round .k1
    | .inr (.inr 3) => .round .k2
    | .inr (.inr 4) => .encrypt
  left_inv i := by
    cases i with
    | round sel => cases sel <;> rfl
    | nop | ldkey k | ldblk b | keygen | encrypt => rfl
  right_inv x := by
    rcases x with k | b | n
    · rfl
    · rfl
    · fin_cases n <;> rfl

theorem card_bitVec (n : Nat) : Nat.card (BitVec n) = 2 ^ n := by
  rw [Nat.card_congr BitVec.equivFin.toEquiv, Nat.card_fin]

theorem card_instr : Nat.card Instr = 1285 := by
  rw [Nat.card_congr instrEquiv, Nat.card_sum, Nat.card_sum, card_bitVec, card_bitVec, Nat.card_fin]
  rfl

/-- The legal words are the encoded commands, one each. -/
theorem card_legalWords : Nat.card { w : CmdWord // ∃ i, decode w = .ok i } = 1285 := by
  rw [← card_instr]
  refine (Nat.card_eq_of_bijective (fun i => ⟨encode i, i, encodedCommandsDecodeBack i⟩) ⟨fun i j h => ?_, ?_⟩).symm
  · exact encode_injective (congrArg Subtype.val h)
  · rintro ⟨w, i, h⟩
    exact ⟨i, Subtype.ext (decode_eq_ok_iff.mp h)⟩

/-- The reserved words are the others. -/
theorem card_reservedWords : Nat.card { w : CmdWord // ∃ e, decode w = .error e } = 64251 := by
  have hnot (w : CmdWord) : (∃ e, decode w = .error e) ↔ ¬∃ i, decode w = .ok i := by
    cases decode w <;> simp
  classical
  have hsum := Nat.card_congr (Equiv.sumCompl fun w : CmdWord => ∃ i, decode w = .ok i)
  rw [Nat.card_sum, card_legalWords, card_bitVec] at hsum
  rw [Nat.card_congr (Equiv.subtypeEquivRight hnot)]
  omega

theorem runWord_of_ok {w : CmdWord} {i : Instr} (h : decode w = .ok i) (s : State) : runWord w s = exec i s := by
  rw [runWord, h]

theorem runWord_of_error {w : CmdWord} {e : Reserved} (h : decode w = .error e) (s : State) :
    runWord w s = .next (s.faultEntry .illegalCommand) := by
  rw [runWord, h]
  rfl

/-- Settles O4: the classes by operation code, the legal words counted as commands, and the one way a reserved word ends. -/
theorem reservedWordsAreTheFiveClasses : Obligations.ReservedWordsAreTheFiveClasses :=
  ⟨exists_decode_error_iff, ⟨card_legalWords, card_reservedWords⟩, fun s _ _ _ h =>
    ⟨_, runWord_of_error h s, faultedWith_faultEntry s .illegalCommand⟩⟩

end Sys2Proof
end

section
/-! PROOFS. The text form (30_encoding.md R51, R52; 60_exceptions.md R103): the operand parser on every string, and the text of
every command read back. -/

namespace Sys2Proof.Machine

/-! ### Bit strings -/

/-- A bit string's bits are read character by character. -/
theorem textBits_of_binary {cs : List Char} (h : ∀ ch ∈ cs, ch = '0' ∨ ch = '1') : textBits cs = some (cs.map (· == '1')) := by
  induction cs with
  | nil => rfl
  | cons c cs ih =>
    obtain ⟨hc, hcs⟩ := List.forall_mem_cons.mp h
    rcases hc with rfl | rfl <;> rw [textBits, ih hcs] <;> rfl

/-- A string with another character has no bits. -/
theorem textBits_of_not_binary {cs : List Char} (h : ∃ ch ∈ cs, ch ≠ '0' ∧ ch ≠ '1') : textBits cs = none := by
  induction cs using textBits.induct with
  | case1 => simp at h
  | case2 cs ih | case3 cs ih => rw [textBits, ih (by simpa using h), Option.map_none]
  | case4 c cs h0 h1 => rw [textBits] <;> assumption

/-- A bit string of the right length is the vector of its characters (R51). -/
theorem bitOperand_of_binary {n : Nat} {cs : List Char} (h : ∀ ch ∈ cs, ch = '0' ∨ ch = '1') (hlen : cs.length = n) :
    bitOperand n cs = .ok (ofPos n fun i => (cs.map (· == '1')).getD i false) := by
  simp [bitOperand, textBits_of_binary h, hlen]

/-- A string of another length is malformed, whatever its characters (R51, R103). -/
theorem bitOperand_of_length_ne {n : Nat} {cs : List Char} (hlen : cs.length ≠ n) :
    bitOperand n cs = .error (.fault .malformedBitInput) := by
  by_cases h : ∀ ch ∈ cs, ch = '0' ∨ ch = '1'
  · simp [bitOperand, textBits_of_binary h, hlen]
  · push Not at h
    rw [bitOperand, textBits_of_not_binary h]

/-- Settles O58: the parser fails on the characters or on the length, and otherwise reads the string by position. -/
theorem malformedBitStringsAreRejected : Obligations.MalformedBitStringsAreRejected := by
  refine fun n cs => ⟨fun h => ?_, fun h hlen => ⟨_, bitOperand_of_binary h hlen, fun i hi => ?_⟩⟩
  · rcases h with h | hlen
    · rw [bitOperand, textBits_of_not_binary h]
    · exact bitOperand_of_length_ne hlen
  · rw [pos_ofPos_of_lt _ (hlen ▸ hi)]
    simp [hi]

/-- The parser reads a vector's own characters back (R51). -/
theorem bitOperand_bitText {n : Nat} (v : BitVec n) : bitOperand n (bitText v) = .ok v := by
  have binary : ∀ ch ∈ bitText v, ch = '0' ∨ ch = '1' := by
    intro ch h
    obtain ⟨i, -, rfl⟩ := List.mem_map.mp h
    split <;> simp
  have bits : (bitText v).map (· == '1') = (List.range n).map (pos v) := by
    rw [bitText, List.map_map]
    refine List.map_congr_left fun i _ => ?_
    cases h : pos v i <;> simp [h]
  rw [bitOperand_of_binary binary (by simp [bitText]), bits]
  refine congrArg Except.ok (eq_of_pos fun i hi => ?_)
  rw [pos_ofPos_of_lt _ hi]
  simp [hi]

/-! ### Commands and the pseudo-instruction -/

/-- The text form of a command names it. -/
theorem parseCommand_textOf (i : Instr) : parseCommand (textOf i) = .ok i := by
  cases i with
  | ldkey k => exact congrArg (Except.map Instr.ldkey) (bitOperand_bitText k)
  | ldblk b => exact congrArg (Except.map Instr.ldblk) (bitOperand_bitText b)
  | round sel => cases sel <;> rfl
  | nop | keygen | encrypt => rfl

/-- No command's text is taken for the pseudo-instruction. -/
theorem assemble_textOf (i : Instr) : assemble (textOf i) = (parseCommand (textOf i)).map fun i => [encode i] := by
  cases i with
  | round sel => cases sel <;> rfl
  | nop | ldkey k | ldblk b | keygen | encrypt => rfl

/-- The operands of `SDES` are a key of ten characters and, after a comma and a space, the block (R52). -/
theorem sdesOperands_bitText (k : MasterKey) (b : Block) :
    sdesOperands (bitText k ++ ',' :: ' ' :: bitText b) = .ok (sdes k b) := by
  have hlen : (bitText k).length = 10 := by simp [bitText]
  rw [sdesOperands, List.drop_left' hlen, List.take_left' hlen, bitOperand_bitText]
  simp [bitOperand_bitText, bind, Except.bind]

/-- Settles O57: each operand's characters are read back, and the words are then those of the commands. -/
theorem textFormsAssemble : Obligations.TextFormsAssemble := by
  refine ⟨fun i => ?_, fun k b => ?_⟩
  · rw [assemble_textOf, parseCommand_textOf]
    rfl
  · have htext : sdesText k b = 'S' :: 'D' :: 'E' :: 'S' :: ' ' :: (bitText k ++ ',' :: ' ' :: bitText b) := by
      simp [sdesText]
    rw [htext, assemble, sdesOperands_bitText]
    rfl

end Sys2Proof.Machine
end

section
/-! PROOFS. What a step does with an accepted word (30_encoding.md R53; 43_host_commands.md R95), and the start-up order as a run
of four such steps (70_reset_and_hazards.md R118, R124). -/

namespace Sys2Proof.Machine

@[simp] theorem State.halt_withPins (s : State) (ps : List Pins) : (s.withPins ps).halt = s.halt := rfl

/-- A core that is not halted runs the word presented to it (R95). -/
theorem step_of_presented {s : State} {p : Pins} {ps : List Pins} (hp : s.pins = p :: ps) (hrst : p.rst = false)
    (hvalid : p.cmdValid = true) (hhalt : s.halt = false) : step s = runWord p.cmd (s.withPins ps) := by
  have ha : (s.withPins ps).accepts p = true := by
    simp [State.accepts, State.cmdReady, hvalid, hrst, hhalt]
  rw [step, handshake, hp]
  simp only [pinStep, hrst, ha, Bool.false_eq_true, if_false, if_true]

/-- Settles O11: the step is that of the word presented. -/
theorem stepRunsDecodedCommand : Obligations.StepRunsDecodedCommand := by
  intro s p ps hp hrst hvalid hhalt
  rw [step_of_presented hp hrst hvalid hhalt]
  exact ⟨fun i h => runWord_of_ok h _, fun e h => runWord_of_error h _⟩

/-- A step that answers a next state is the first of a run that goes on from there. -/
theorem run_succ_of_step {M : Host.Core} {s t : M.State} (n : Nat) (h : M.step s = .next t) : M.run (n + 1) s = M.run n t := by
  rw [Host.Core.run, h]

/-- The first command of a run: when it completes, the run goes on with the other words from the state it leaves. -/
theorem runWords_encode_cons {i : Instr} {s t : State} (ws : List CmdWord) (hhalt : s.halt = false)
    (h : writes i s = .ok t) : runWords (encode i :: ws) s = runWords ws t := by
  have hstep : step (s.withPins (present (encode i) :: ws.map present)) = .next (t.withPins (ws.map present)) := by
    rw [step_of_presented (p := present (encode i)) (State.pins_withPins _ _) rfl rfl hhalt, State.withPins_withPins, present,
      runWord_of_ok (encodedCommandsDecodeBack i), exec_eq_finish, writes_withPins, h]
    rfl
  exact run_succ_of_step (M := Sys2Proof.core) ws.length hstep

/-- A command that completes leaves `HALT` as it was (R19). -/
theorem halt_of_writes {i : Instr} {s t : State} (h : writes i s = .ok t) : t.halt = s.halt := by
  obtain ⟨-, -, hstatus⟩ := (completes_of_writes h).frame
  exact hstatus haltBit le_rfl

/-- With tables as required, two rounds answer a block (R119). -/
theorem enc2_of_roundOk {c : Cfg} (h : c.roundOk = true) (b : Block) (k1 k2 : RoundKey) : ∃ b2, enc2 c b k1 k2 = .ok b2 := by
  have hrf (b : Block) (k : RoundKey) : rf c b k = .ok (roundValue c b k).out := by
    rw [rf, rfTrace_of_roundOk h]
    rfl
  rw [enc2, hrf]
  exact ⟨_, hrf _ k2⟩

/-- Settles O59: each of the four commands completes, and so leaves the core not halted for the next one. -/
theorem startUpOrderYieldsTheCiphertext : Obligations.StartUpOrderYieldsTheCiphertext := by
  intro s k b hhalt htables
  obtain ⟨hks, hround⟩ := Bool.and_eq_true_iff.mp htables
  obtain ⟨⟨k1, k2⟩, hkeys⟩ : ∃ r, ks s.rom k = .ok r := ⟨_, ks_of_keyScheduleOk hks k⟩
  obtain ⟨b2, hb2⟩ := enc2_of_roundOk hround b k1 k2
  obtain ⟨s1, hs1⟩ : ∃ s1, s1 = (((s.setKey k).setRoundKeys 0#8 0#8).setKeyv true).setRkv false := ⟨_, rfl⟩
  obtain ⟨s2, hs2⟩ : ∃ s2, s2 = (s1.setRoundKeys k1 k2).setRkv true := ⟨_, rfl⟩
  obtain ⟨s3, hs3⟩ : ∃ s3, s3 = (s2.setBlk b).setBlkv true := ⟨_, rfl⟩
  have w1 : writes (.ldkey k) s = .ok s1 := congrArg Except.ok hs1.symm
  have w2 : writes .keygen s1 = .ok s2 := by
    rw [writes, keygenWrites_eq]
    simp [hs1, hs2, hkeys, Except.map]
  have w3 : writes (.ldblk b) s2 = .ok s3 := congrArg Except.ok hs3.symm
  have w4 : writes .encrypt s3 = .ok (s3.setBlk b2) := by
    rw [writes, encryptWrites_eq]
    simp [hs1, hs2, hs3, hb2, Except.map]
  have h1 := (halt_of_writes w1).trans hhalt
  have h2 := (halt_of_writes w2).trans h1
  have h3 := (halt_of_writes w3).trans h2
  have h4 := (halt_of_writes w4).trans h3
  refine ⟨(s3.setBlk b2).withPins [], k1, k2, b2, ⟨?_, h4⟩, hkeys, hb2, ?_, ?_, rfl, h4, ?_⟩
  · change runWords [encode (.ldkey k), encode .keygen, encode (.ldblk b), encode .encrypt] s = _
    rw [runWords_encode_cons _ hhalt w1, runWords_encode_cons _ h1 w2, runWords_encode_cons _ h2 w3,
      runWords_encode_cons _ h3 w4]
    rfl
  · simp [State.k1O, hs3, hs2]
  · simp [State.k2O, hs3, hs2]
  · simp [hs3, hs2, hs1]

end Sys2Proof.Machine
end

section
/-! PROOFS. The four combinational units by position (40_primitives.md R55 to R66). -/

namespace Sys2Proof.Machine

/-- The position that an entry inside the table selects. -/
theorem selected_of_lt {m : Nat} (t : Table m) {i : Nat} (h : i < m) : selected t i = (t[i]).toNat - 1 :=
  congrArg (· - 1) (tabRead_of_lt t h)

/-- A table is no good for inputs of length `n` exactly when one of its entries is 0 or above `n` (R56). -/
theorem entriesWithin_eq_false_iff {n m : Nat} (t : Table m) :
    entriesWithin n t = false ↔ ∃ i, ∃ h : i < m, (t[i]).toNat = 0 ∨ n < (t[i]).toNat := by
  rw [← Bool.not_eq_true, entriesWithin_iff]
  push Not
  refine exists₂_congr fun i hi => ?_
  omega

/-- A table whose entries are legal makes PERM answer a vector. -/
theorem perm_of_entriesWithin {n m : Nat} (v : BitVec n) {t : Table m} (h : entriesWithin n t = true) :
    perm v t = .ok (ofPos m fun i => pos v (selected t i)) := by
  rw [perm_eq, if_pos h]

/-- PERM's fault is decided by the table and the input's length alone. -/
theorem perm_eq_error_iff {n m : Nat} (v : BitVec n) (t : Table m) :
    perm v t = .error .invalidTableIndex ↔ entriesWithin n t = false := by
  rw [perm_eq]
  cases entriesWithin n t <;> simp

/-- Settles O21: where the table is legal, by the vector PERM answers; else by the characterization of its fault. -/
theorem permSelectsByTable : Obligations.PermSelectsByTable := by
  refine ⟨fun n m v t => ⟨fun h => ?_, fun ⟨i, hi, hbad⟩ => ?_⟩, by decide⟩
  · refine ⟨_, perm_of_entriesWithin v ((entriesWithin_iff t).mpr h), fun i hi => ?_⟩
    rw [pos_ofPos_of_lt _ hi, selected_of_lt t hi]
  · exact (perm_eq_error_iff v t).mpr ((entriesWithin_eq_false_iff t).mpr ⟨i, hi, hbad.imp_left Nat.lt_one_iff.mp⟩)

/-- Settles O22: the empty table has no entry to be out of range, and there is one empty vector. -/
theorem permRejectsBadIndices : Obligations.PermRejectsBadIndices := by
  refine ⟨fun n m v t => (perm_eq_error_iff v t).trans (entriesWithin_eq_false_iff t), fun n v t => ?_⟩
  have hlegal : entriesWithin n t = true := (entriesWithin_iff t).mpr nofun
  exact perm_of_entriesWithin v hlegal

/-- The check of an inverse table (R57), by selected positions: `t2` holds `i + 1` where `t1` selects for `i`. -/
theorem inverseTables_iff {n : Nat} (t1 t2 : Table n) : inverseTables t1 t2 = true ↔
    entriesWithin n t1 = true ∧ ∀ i < n, (t2[selected t1 i]?).map BitVec.toNat = some (i + 1) := by
  simp only [inverseTables, Bool.and_eq_true, List.all_eq_true, List.mem_range, beq_iff_eq, selected]

section InverseTables

variable {n : Nat} {t1 t2 : Table n} (h : inverseTables t1 t2 = true)
include h

/-- Read through the table, then through its inverse, a position comes back. -/
theorem toNat_getElem_of_inverseTables {i j : Nat} (hi : i < n) (hj : j < n) (hij : selected t1 i = j) :
    (t2[j]).toNat = i + 1 := by
  have hentry := ((inverseTables_iff t1 t2).mp h).2 i hi
  simpa [hij, hj] using hentry

/-- A table that has an inverse reaches every position: it is injective on the finitely many positions, since the inverse
table recovers the index. -/
theorem exists_selected_eq {j : Nat} (hj : j < n) : ∃ i < n, selected t1 i = j := by
  have hlt (i : Fin n) : selected t1 i < n := selected_lt ((inverseTables_iff t1 t2).mp h).1 i.isLt
  have hinj : Function.Injective fun i : Fin n => (⟨selected t1 i, hlt i⟩ : Fin n) := by
    intro a b hab
    have ha := toNat_getElem_of_inverseTables h a.isLt (hlt a) rfl
    have hb := toNat_getElem_of_inverseTables h b.isLt (hlt a) (Fin.val_eq_of_eq hab).symm
    omega
  obtain ⟨i, hi⟩ := Finite.surjective_of_injective hinj ⟨j, hj⟩
  exact ⟨i, i.isLt, congrArg Fin.val hi⟩

/-- An inverse table's entries are legal indices. -/
theorem entriesWithin_of_inverseTables : entriesWithin n t2 = true := by
  refine (entriesWithin_iff t2).mpr fun j hj => ?_
  obtain ⟨i, hi, hij⟩ := exists_selected_eq h hj
  rw [toNat_getElem_of_inverseTables h hi hj hij]
  omega

/-- The table undoes its inverse on positions. -/
theorem selected_selected_of_inverseTables {j : Nat} (hj : j < n) : selected t1 (selected t2 j) = j := by
  obtain ⟨i, hi, hij⟩ := exists_selected_eq h hj
  rw [selected_of_lt t2 hj, toNat_getElem_of_inverseTables h hi hj hij, Nat.add_sub_cancel, hij]

end InverseTables

/-- Settles O23: position `j` of the second PERM is the input's at the position selected through both tables, which is `j`. -/
theorem inverseTableUndoesPerm : Obligations.InverseTableUndoesPerm := by
  intro n t1 t2 h v
  have hlegal1 : entriesWithin n t1 = true := ((inverseTables_iff t1 t2).mp h).1
  have hlegal2 : entriesWithin n t2 = true := entriesWithin_of_inverseTables h
  refine ⟨_, perm_of_entriesWithin v hlegal1, (perm_of_entriesWithin _ hlegal2).trans (congrArg Except.ok ?_)⟩
  refine eq_of_pos fun j hj => ?_
  rw [pos_ofPos_of_lt _ hj, pos_ofPos_of_lt _ (selected_lt hlegal2 hj), selected_selected_of_inverseTables h hj]

/-- What ROTL holds at a position (R59). -/
theorem pos_rotl {n : Nat} (v : BitVec n) (s : Nat) {i : Nat} (h : i < n) : pos (rotl v s) i = pos v ((i + s) % n) :=
  pos_ofPos_of_lt _ h

/-- Settles O24, by the positions of ROTL. -/
theorem rotlMovesPositions : Obligations.RotlMovesPositions :=
  ⟨fun _ v s _ hi => pos_rotl v s hi, by decide, by decide⟩

/-- ROTL reads its shift modulo the length (R60). -/
theorem rotl_congr {n : Nat} (v : BitVec n) {s t : Nat} (h : s ≡ t [MOD n]) : rotl v s = rotl v t := by
  refine eq_of_pos fun i hi => ?_
  rw [pos_rotl v s hi, pos_rotl v t hi, h.add_left i]

/-- ROTL by 0 changes nothing (R60). -/
theorem rotl_zero {n : Nat} (v : BitVec n) : rotl v 0 = v := by
  refine eq_of_pos fun i hi => ?_
  rw [pos_rotl v 0 hi, Nat.add_zero, Nat.mod_eq_of_lt hi]

/-- A second ROTL adds its shift to the first one's (R60). -/
theorem rotl_rotl {n : Nat} (v : BitVec n) (a b : Nat) : rotl (rotl v a) b = rotl v (a + b) := by
  refine eq_of_pos fun i hi => ?_
  have hmod : (i + b) % n < n := Nat.mod_lt _ (Nat.zero_lt_of_lt hi)
  rw [pos_rotl _ b hi, pos_rotl v a hmod, pos_rotl v (a + b) hi, Nat.mod_add_mod, Nat.add_assoc, Nat.add_comm b a]

/-- Settles O25: a shift of the length itself is a shift of 0 modulo the length. -/
theorem rotationsComposeAdditively : Obligations.RotationsComposeAdditively := by
  intro n v
  refine ⟨rotl_rotl v, fun s => rotl_congr v (Nat.mod_modEq s n).symm, rotl_zero v, ?_⟩
  exact (rotl_congr v Nat.modulus_modEq_zero).trans (rotl_zero v)

/-- Settles O26: on equal lengths XOR is the exclusive-or of words, read by position. -/
theorem xorIsElementwiseOnEqualLengths : Obligations.XorIsElementwiseOnEqualLengths :=
  ⟨fun _ a b => ⟨_, xor_eq_ok a b, fun i _ => pos_xor a b i⟩, fun _ _ => xor_eq_error, by decide⟩

/-- Settles O27: on equal lengths XOR is the exclusive-or of words, so these are its laws. -/
theorem xorLaws : Obligations.XorLaws := by
  intro n a b
  simp only [xor_eq_ok]
  refine ⟨a ^^^ b, rfl, ?_, ?_, ?_, ?_⟩
  · rw [← BitVec.xor_assoc, BitVec.xor_self, BitVec.zero_xor]
  · rw [BitVec.xor_comm]
  · rw [BitVec.xor_self]
  · rw [BitVec.xor_zero]

/-- A row or column index is the number its two bits write (R64). -/
theorem val_twoBits (a b : Bool) : (twoBits a b).val = 2 * a.toNat + b.toNat :=
  Nat.mod_eq_of_lt (by have := a.toNat_lt; have := b.toNat_lt; omega)

/-- The vector of an S-box entry holds its high bit first (R66). -/
theorem pos_entryBits (e : BitVec 2) :
    (pos (entryBits e) 0).toNat = e.toNat / 2 ∧ (pos (entryBits e) 1).toNat = e.toNat % 2 := by
  revert e
  decide

/-- Settles O28: the entry read is the one at the row and column that the input's bits write. -/
theorem sboxReadsRowAndColumn : Obligations.SboxReadsRowAndColumn := by
  refine ⟨fun v a => ?_, fun n v a hn => if_neg hn⟩
  obtain ⟨hhigh, hlow⟩ := pos_entryBits (sboxRead a (sboxRow v) (sboxCol v))
  exact ⟨_, sboxRow v, sboxCol v, val_twoBits _ _, val_twoBits _ _, sbox_eq_ok v a, hhigh, hlow⟩

end Sys2Proof.Machine
end

section
/-! PROOFS. The key schedule and KEYGEN (41_key_schedule.md R70 to R75): when KS faults, the halves it keeps, the key bit behind
each round-key bit, and what KEYGEN writes. -/

namespace Sys2Proof.Machine

/-! ### The key schedule -/

/-- An illegal entry of P10 faults step 1, one of P8 the first step that reads P8 (R73). -/
theorem ks_of_keyScheduleOk_eq_false {c : Cfg} (h : c.keyScheduleOk = false) (key : MasterKey) :
    ks c key = .error .invalidTableIndex := by
  cases hp10 : entriesWithin 10 c.p10 with
  | false =>
    rw [ks, ksTrace, (perm_eq_error_iff key c.p10).mpr hp10]
    rfl
  | true =>
    have hp8 : entriesWithin (5 + 5) c.p8 = false := by simpa [Cfg.keyScheduleOk, hp10] using h
    have hfault (v : BitVec (5 + 5)) : perm v c.p8 = .error .invalidTableIndex := (perm_eq_error_iff v c.p8).mpr hp8
    rw [ks, ksTrace, perm_of_entriesWithin key hp10]
    simp only [hfault, bind, Except.bind]

/-- Settles O29: KS answers exactly when both of its tables are legal. -/
theorem keyScheduleFaultsByTablesAlone : Obligations.KeyScheduleFaultsByTablesAlone := by
  intro c key
  refine ⟨fun hbad => ks_of_keyScheduleOk_eq_false (Bool.and_eq_false_iff.mpr hbad) key, fun hp10 hp8 => ?_⟩
  exact ⟨_, _, ks_of_keyScheduleOk (Bool.and_eq_true_iff.mpr ⟨hp10, hp8⟩) key⟩

/-- The halves that the key schedule keeps, each from the one before it (R71, R72). -/
theorem ksTrace_halves {c : Cfg} {key : MasterKey} {t : KsTrace} (h : ksTrace c key = .ok t) :
    (t.kl0 = sub t.p 0 5 ∧ t.kr0 = sub t.p 5 5) ∧ (t.kl1 = rotl t.kl0 1 ∧ t.kr1 = rotl t.kr0 1) ∧
    (t.kl2 = rotl t.kl1 2 ∧ t.kr2 = rotl t.kr1 2) := by
  simp only [ksTrace, perm_eq, bind, Except.bind] at h
  split_ifs at h
  cases h
  exact ⟨⟨rfl, rfl⟩, ⟨rfl, rfl⟩, rfl, rfl⟩

/-- A vector is its first part joined to the rest. -/
theorem cat_sub_sub {n m : Nat} (v : BitVec (n + m)) : cat (sub v 0 n) (sub v n m) = v := by
  refine eq_of_pos fun i hi => ?_
  rw [pos_cat]
  split
  · next hlt => rw [pos_sub v 0 hlt, Nat.zero_add]
  · next hge => rw [pos_sub v n (by omega), Nat.add_sub_cancel' (Nat.not_lt.mp hge)]

/-- Settles O30: the halves are the P10 output cut in two, and a rotation by 2 after one by 1 is one by 3. -/
theorem keyHalvesRotateInTwoStages : Obligations.KeyHalvesRotateInTwoStages := by
  intro c key t h
  obtain ⟨⟨hl0, hr0⟩, ⟨hl1, hr1⟩, hl2, hr2⟩ := ksTrace_halves h
  refine ⟨?_, hl1, hr1, hl2, hr2, ?_, ?_⟩
  · rw [hl0, hr0]
    exact cat_sub_sub (n := 5) (m := 5) t.p
  · rw [hl2, hl1, rotl_rotl]
  · rw [hr2, hr1, rotl_rotl]

/-- The position of `p` that the joined halves of `p` show, each half rotated by `r`: no bit leaves its half (R71). -/
theorem pos_cat_rotl_halves (p : BitVec 10) (r : Nat) {j : Nat} (hj : j < 10) :
    pos (cat (rotl (sub p 0 5) r : KeyHalf) (rotl (sub p 5 5) r : KeyHalf)) j = pos p (rotatedSource r j) := by
  have hmod (a : Nat) : a % 5 < 5 := Nat.mod_lt a (by decide)
  rw [pos_cat, rotatedSource]
  split
  · next hleft => rw [pos_rotl _ r hleft, pos_sub p 0 (hmod _), Nat.zero_add]
  · rw [pos_rotl _ r (show j - 5 < 5 by omega), pos_sub p 5 (hmod _)]

theorem rotatedSource_lt (r j : Nat) : rotatedSource r j < 10 := by
  rw [rotatedSource]
  split <;> omega

/-- Each round-key bit copies the key bit that P8, the rotation of its half and P10 name (R74). -/
theorem pos_keyScheduleValue {c : Cfg} (h : c.keyScheduleOk = true) (key : MasterKey) {i : Nat} (hi : i < 8) :
    pos (keyScheduleValue c key).1 i = pos key (keySource c 1 i) ∧
    pos (keyScheduleValue c key).2 i = pos key (keySource c 3 i) := by
  obtain ⟨-, hp8⟩ := Bool.and_eq_true_iff.mp h
  have hsource (r : Nat) :
      pos (ofPos 10 fun j => pos key (selected c.p10 j)) (rotatedSource r (selected c.p8 i)) = pos key (keySource c r i) :=
    pos_ofPos_of_lt _ (rotatedSource_lt r _)
  simp only [keyScheduleValue, rotl_rotl, pos_ofPos_of_lt _ hi]
  rw [pos_cat_rotl_halves _ 1 (selected_lt hp8 hi), pos_cat_rotl_halves _ 3 (selected_lt hp8 hi)]
  exact ⟨hsource 1, hsource 3⟩

/-! ### KEYGEN -/

theorem exec_keygen_of_not_keyv {s : State} (hv : s.keyv = false) : exec .keygen s = .next (s.faultEntry .operandNotReady) := by
  rw [exec_eq_finish, writes, keygenWrites_eq, hv]
  rfl

theorem exec_keygen_of_ks_error {s : State} {c : FaultKind} (hv : s.keyv = true) (hk : ks s.rom s.key = .error c) :
    exec .keygen s = .next (s.faultEntry c) := by
  rw [exec_eq_finish, writes, keygenWrites_eq, hv, hk]
  rfl

theorem exec_keygen_of_ks_ok {s : State} {k1 k2 : RoundKey} (hv : s.keyv = true) (hk : ks s.rom s.key = .ok (k1, k2)) :
    exec .keygen s = .next ((s.setRoundKeys k1 k2).setRkv true) := by
  rw [exec_eq_finish, writes, keygenWrites_eq, hv, hk]
  rfl

/-- Writing RKV changes STATUS bit 1 alone. -/
theorem sameStatusBut_setRkv (s : State) (b : Bool) : SameStatusBut [1] s (s.setRkv b) := by
  intro n hn
  have hne : n ≠ rkvBit := List.ne_of_not_mem_cons hn
  rw [State.status_setRkv, getLsbD_writeBit _ _ _ (by decide), if_neg hne]

/-- Writing a bit of STATUS twice is writing it once. -/
theorem writeBit_writeBit (st : BitVec 8) {n : Nat} (hn : n < 8) (b : Bool) :
    writeBit (writeBit st n b) n b = writeBit st n b := by
  refine BitVec.eq_of_getLsbD_eq fun i _ => ?_
  rw [getLsbD_writeBit _ _ _ hn]
  split
  · next hin => rw [getLsbD_writeBit _ _ _ hn, if_pos hin]
  · rfl

/-- KEYGEN's writes, made twice, are those made once. -/
theorem setRoundKeys_setRkv_twice (s : State) (k1 k2 : RoundKey) (b : Bool) :
    (((s.setRoundKeys k1 k2).setRkv b).setRoundKeys k1 k2).setRkv b = (s.setRoundKeys k1 k2).setRkv b :=
  congrArg (fun st => { s.setRoundKeys k1 k2 with status := st }) (writeBit_writeBit s.status (by decide) b)

/-- Settles O32: KEYGEN's three endings; after the last one KEY and KEYV are as before, so it writes the same again. -/
theorem keygenFollowsItsRule : Obligations.KeygenFollowsItsRule := by
  refine ⟨by decide, fun s => ⟨fun hv => ?_, fun c hv hk => ?_, fun k1 k2 hv hk => ?_⟩⟩
  · exact ⟨_, exec_keygen_of_not_keyv hv, faultedWith_faultEntry s _⟩
  · exact ⟨_, exec_keygen_of_ks_error hv hk, faultedWith_faultEntry s c⟩
  · have hagain := exec_keygen_of_ks_ok (s := (s.setRoundKeys k1 k2).setRkv true) (by simpa using hv) hk
    rw [setRoundKeys_setRkv_twice] at hagain
    refine ⟨_, exec_keygen_of_ks_ok hv hk, rfl, rfl, by simp, ?_, rfl, rfl, rfl, rfl, hagain⟩
    exact sameStatusBut_setRkv (s.setRoundKeys k1 k2) true

/-- Settles O31: with legal tables KS answers, so KEYGEN writes its value, and each bit of that is a key bit. -/
theorem keygenCopiesKeyBits : Obligations.KeygenCopiesKeyBits := by
  intro s hv hok
  obtain ⟨-, -, hcompletes⟩ := keygenFollowsItsRule.2 s
  obtain ⟨t, hx, hk1, hk2, hrkv, hstatus, hkey, hblk, hrom, hpins, -⟩ := hcompletes _ _ hv (ks_of_keyScheduleOk hok s.key)
  refine ⟨t, hx, fun i hi => ?_, fun i hi => ?_, hrkv, hstatus, hkey, hblk, hrom, hpins⟩
  · exact hk1 ▸ (pos_keyScheduleValue hok s.key hi).1
  · exact hk2 ▸ (pos_keyScheduleValue hok s.key hi).2

end Sys2Proof.Machine
end

section
/-! PROOFS. The round function and its two commands (42_round_function.md R80 to R94). A round is IP, then the mixing of
`F(R, k)` into the Left half, then IP⁻¹: from this one equation come the faults and, where IP⁻¹ inverts IP, the laws of R91. -/

namespace Sys2Proof.Machine

/-! ### The steps of a round -/

/-- With tables as required, a round answers the last of its named values. -/
theorem rf_of_roundOk {c : Cfg} (h : c.roundOk = true) (b : Block) (k : RoundKey) : rf c b k = .ok (roundValue c b k).out := by
  rw [rf, rfTrace_of_roundOk h]
  rfl

/-- Settles O33: a legal table selects positions of its input, so each step's positions are those the step reads. -/
theorem roundFollowsItsSteps : Obligations.RoundFollowsItsSteps := by
  refine ⟨fun u => ⟨_, perm_of_entriesWithin u entriesWithin_p4⟩, fun c b k h => ?_⟩
  obtain ⟨-, -, hlen, -⟩ := (roundOk_iff c).mp h
  have hep {i : Nat} (hi : i < 8) : i < c.ep.len.val := hlen.symm ▸ hi
  have hq (i : Nat) (hi : i < 4) : pos (roundValue c b k).q i = pos (roundValue c b k).s (selected p4 i) := pos_ofPos_of_lt _ hi
  refine ⟨roundValue c b k, rfTrace_of_roundOk h b k, rf_of_roundOk h b k, ?ip, ?split, ?ep, ?keyMixer, ?sboxes, ?p4,
    ?leftMixer, ?ipinv⟩
  case ip => exact fun i hi => pos_ofPos_of_lt _ hi
  case split =>
    refine fun i hi => ⟨(pos_sub _ 0 hi).trans ?_, pos_sub _ 4 hi⟩
    rw [Nat.zero_add]
    rfl
  case ep => exact fun i hi => pos_ofPos_of_lt _ (hep hi)
  case keyMixer => exact fun i hi => pos_ofPos_of_lt _ hi
  case sboxes => exact ⟨sbox_eq_ok _ _, sbox_eq_ok _ _, rfl⟩
  case p4 => exact ⟨hq 0 (by decide), hq 1 (by decide), hq 2 (by decide), hq 3 (by decide)⟩
  case leftMixer => exact fun i _ => pos_xor _ _ i
  case ipinv => exact fun i hi => (pos_ofPos_of_lt _ hi).trans (pos_cat _ _ _)

/-! ### Rounds as mixings of the Left half -/

/-- The block after IP with `f` mixed into its Left half; the Right half stays where it is (R88, R89). -/
def mixLeft (p : BitVec 8) (f : DataHalf) : BitVec 8 := cat (f ^^^ (sub p 0 4 : DataHalf)) (sub p 4 4 : DataHalf)

/-- A round is IP, then the mixing of `F(R, k)` into Left, then IP⁻¹, whatever the tables (R80, R91 (a)). -/
theorem rf_eq (c : Cfg) (b : Block) (k : RoundKey) : rf c b k =
    perm b c.ip >>= fun p => roundF c (sub p 4 4) k >>= fun f => perm (mixLeft p f) c.ipinv := by
  simp only [rf, rfTrace, roundF, bind_assoc, xor_eq_ok]
  refine bind_congr fun p => bind_congr fun e => bind_congr fun x => bind_congr fun s0 => bind_congr fun s1 =>
    bind_congr fun q => ?_
  exact bind_pure (m := Except FaultKind) _

/-- The mixing function faults on a bad entry of EP before all else (R86). -/
theorem roundF_of_ep_entry {c : Cfg} (h : entriesWithin 4 c.ep.entries = false) (r : DataHalf) (k : RoundKey) :
    roundF c r k = .error .invalidTableIndex := by
  rw [roundF, (perm_eq_error_iff r c.ep.entries).mpr h]
  rfl

/-- With legal entries of EP the mixing function faults where EP's output is not as long as a round key (R86). -/
theorem roundF_of_ep_len {c : Cfg} (h : entriesWithin 4 c.ep.entries = true) (hlen : c.ep.len.val ≠ 8) (r : DataHalf)
    (k : RoundKey) : roundF c r k = .error .lengthMismatch := by
  rw [roundF, perm_of_entriesWithin r h]
  simp only [bind, Except.bind, xor_eq_error _ k hlen]

/-- With a legal EP of length 8 the mixing function answers a half, since neither the S-boxes nor P4 fault (R84, R87). -/
theorem roundF_of_ep {c : Cfg} (h : entriesWithin 4 c.ep.entries = true) (hlen : c.ep.len.val = 8) (r : DataHalf)
    (k : RoundKey) : ∃ f, roundF c r k = .ok f := by
  have hp4 (v : BitVec (2 + 2)) : perm v p4 = .ok (ofPos 4 fun i => pos v (selected p4 i)) :=
    perm_of_entriesWithin v entriesWithin_p4
  rw [roundF, perm_of_entriesWithin r h]
  simp only [bind, Except.bind, xor, if_pos hlen, sbox_eq_ok, hp4]
  exact ⟨_, rfl⟩

/-- Settles O34: the three stages of a round fault by their tables alone, whatever the stage before them answers. -/
theorem roundFaultsInStepOrder : Obligations.RoundFaultsInStepOrder := by
  intro c b k
  rw [rf_eq]
  split
  · next hip =>
    rw [(perm_eq_error_iff b c.ip).mpr hip]
    rfl
  · next hip =>
    rw [perm_of_entriesWithin b (eq_true_of_ne_false hip)]
    simp only [bind, Except.bind]
    split
    · next hep => rw [roundF_of_ep_entry hep]
    · next hep =>
      replace hep := eq_true_of_ne_false hep
      split
      · next hlen => rw [roundF_of_ep_len hep hlen]
      · next hlen =>
        obtain ⟨f, hf⟩ := roundF_of_ep hep (not_not.mp hlen) (sub (ofPos 8 fun i => pos b (selected c.ip i)) 4 4) k
        rw [hf]
        split
        · next hipinv => exact (perm_eq_error_iff _ c.ipinv).mpr hipinv
        · next hipinv => exact ⟨_, perm_of_entriesWithin _ (eq_true_of_ne_false hipinv)⟩

/-- A round that answers a block has legal tables, so no other round over them faults. -/
theorem roundOk_of_rf_eq_ok {c : Cfg} {b b1 : Block} {k : RoundKey} (h : rf c b k = .ok b1) : c.roundOk = true := by
  have horder := roundFaultsInStepOrder c b k
  rw [h] at horder
  split_ifs at horder with hip hep hlen hipinv
  exact (roundOk_iff c).mpr ⟨eq_true_of_ne_false hip, eq_true_of_ne_false hep, not_not.mp hlen, eq_true_of_ne_false hipinv⟩

theorem enc2_eq_of_rf_eq_ok {c : Cfg} {b b1 : Block} {k1 : RoundKey} (h : rf c b k1 = .ok b1) (k2 : RoundKey) :
    enc2 c b k1 k2 = rf c b1 k2 := by
  rw [enc2, h]
  rfl

/-- Settles O35: the second round has the first one's tables. -/
theorem twoRoundsCompose : Obligations.TwoRoundsCompose := by
  intro c b k1 k2
  refine ⟨fun f hf => ?_, fun b1 hb1 => ?_⟩
  · rw [enc2, hf]
    rfl
  · have hb2 := rf_of_roundOk (roundOk_of_rf_eq_ok hb1) b1 k2
    exact ⟨_, hb2, (enc2_eq_of_rf_eq_ok hb1 k2).trans hb2⟩

/-! ### Rounds under inverse permutations -/

theorem sub_cat_left {n m : Nat} (a : BitVec n) (b : BitVec m) : sub (cat a b) 0 n = a := by
  refine eq_of_pos fun i hi => ?_
  rw [pos_sub _ 0 hi, pos_cat, Nat.zero_add, if_pos hi]

theorem sub_cat_right {n m : Nat} (a : BitVec n) (b : BitVec m) : sub (cat a b) n m = b := by
  refine eq_of_pos fun i hi => ?_
  rw [pos_sub _ n hi, pos_cat, if_neg (by omega), Nat.add_sub_cancel_left]

/-- Mixing leaves the Right half as it was. -/
theorem right_mixLeft (p : BitVec 8) (f : DataHalf) : (sub (mixLeft p f) 4 4 : DataHalf) = sub p 4 4 :=
  sub_cat_right (n := 4) (m := 4) _ _

theorem left_mixLeft (p : BitVec 8) (f : DataHalf) : (sub (mixLeft p f) 0 4 : DataHalf) = f ^^^ sub p 0 4 :=
  sub_cat_left (n := 4) (m := 4) _ _

/-- Two mixings are one, with both values. -/
theorem mixLeft_mixLeft (p : BitVec 8) (f g : DataHalf) : mixLeft (mixLeft p f) g = mixLeft p (f ^^^ g) := by
  rw [mixLeft, left_mixLeft, right_mixLeft, ← BitVec.xor_assoc, BitVec.xor_comm g f]
  rfl

/-- A mixing is undone by the same mixing. -/
theorem mixLeft_mixLeft_same (p : BitVec 8) (f : DataHalf) : mixLeft (mixLeft p f) f = p := by
  rw [mixLeft_mixLeft, BitVec.xor_self, mixLeft, BitVec.zero_xor]
  exact cat_sub_sub (n := 4) (m := 4) p

/-- PERM by an inverse table, then by its table, gives the vector back: R57's law the other way round. -/
theorem perm_perm_of_inverseTables {n : Nat} {t1 t2 : Table n} (h : inverseTables t1 t2 = true) (u : BitVec n) :
    ∃ v : BitVec n, perm u t2 = .ok v ∧ perm v t1 = .ok u := by
  have hlegal1 : entriesWithin n t1 = true := ((inverseTables_iff t1 t2).mp h).1
  refine ⟨_, perm_of_entriesWithin u (entriesWithin_of_inverseTables h),
    (perm_of_entriesWithin _ hlegal1).trans (congrArg Except.ok (eq_of_pos fun i hi => ?_))⟩
  have hlt : selected t1 i < n := selected_lt hlegal1 hi
  have hback : selected t2 (selected t1 i) = i := by
    rw [selected_of_lt t2 hlt, toNat_getElem_of_inverseTables h hi hlt rfl, Nat.add_sub_cancel]
  rw [pos_ofPos_of_lt _ hi, pos_ofPos_of_lt _ hlt, hback]

/-- `p` is the permuted form of the block `b`. -/
structure IpPair (c : Cfg) (b : Block) (p : BitVec 8) : Prop where
  /-- IP takes the block to `p`. -/
  perm_ip : perm b c.ip = .ok p
  /-- IP⁻¹ takes `p` to the block. -/
  perm_ipinv : perm p c.ipinv = .ok b

section IpInverse

variable {c : Cfg} (hinv : ipInverse c = true)
include hinv

/-- Every block has its permuted form (R57). -/
theorem exists_ipPair (b : Block) : ∃ p, IpPair c b p := by
  obtain ⟨p, hip, hipinv⟩ := inverseTableUndoesPerm 8 c.ip c.ipinv hinv b
  exact ⟨p, hip, hipinv⟩

/-- A round mixes `F(R, k)` into the Left half of the permuted block, and that is all it does (R91 (a)). -/
theorem IpPair.exists_rf {b : Block} {p : BitVec 8} (hp : IpPair c b p) {k : RoundKey} {f : DataHalf}
    (hf : roundF c (sub p 4 4) k = .ok f) : ∃ b1, rf c b k = .ok b1 ∧ IpPair c b1 (mixLeft p f) := by
  obtain ⟨b1, hb1, hb1'⟩ := perm_perm_of_inverseTables hinv (mixLeft p f)
  refine ⟨b1, ?_, hb1', hb1⟩
  rw [rf_eq, hp.perm_ip]
  change roundF c (sub p 4 4) k >>= _ = _
  rw [hf]
  exact hb1

/-- Two rounds mix in both values, both of the one Right half (R91 (a)). -/
theorem IpPair.exists_enc2 {b : Block} {p : BitVec 8} (hp : IpPair c b p) {k1 k2 : RoundKey} {f1 f2 : DataHalf}
    (hf1 : roundF c (sub p 4 4) k1 = .ok f1) (hf2 : roundF c (sub p 4 4) k2 = .ok f2) :
    ∃ b2, enc2 c b k1 k2 = .ok b2 ∧ IpPair c b2 (mixLeft p (f1 ^^^ f2)) := by
  obtain ⟨b1, hb1, hp1⟩ := hp.exists_rf hinv hf1
  rw [← right_mixLeft p f1] at hf2
  obtain ⟨b2, hb2, hp2⟩ := hp1.exists_rf hinv hf2
  rw [mixLeft_mixLeft] at hp2
  exact ⟨b2, (enc2_eq_of_rf_eq_ok hb1 k2).trans hb2, hp2⟩

end IpInverse

/-- A permuted form is that of one block only. -/
theorem IpPair.block_unique {c : Cfg} {b b' : Block} {p : BitVec 8} (h : IpPair c b p) (h' : IpPair c b' p) : b = b' :=
  Except.ok.inj (h.perm_ipinv.symm.trans h'.perm_ipinv)

/-- With legal tables the mixing function answers a half. -/
theorem roundF_of_roundOk {c : Cfg} (h : c.roundOk = true) (r : DataHalf) (k : RoundKey) : ∃ f, roundF c r k = .ok f := by
  obtain ⟨-, hep, hlen, -⟩ := (roundOk_iff c).mp h
  exact roundF_of_ep hep hlen r k

/-- Settles O39: the second round mixes in the same value, for it sees the same Right half. -/
theorem roundFunctionIsItsOwnInverse : Obligations.RoundFunctionIsItsOwnInverse := by
  intro c b k hok hinv
  obtain ⟨p, hp⟩ := exists_ipPair hinv b
  obtain ⟨f, hf⟩ := roundF_of_roundOk hok (sub p 4 4) k
  obtain ⟨b1, hb1, hp1⟩ := hp.exists_rf hinv hf
  rw [← right_mixLeft p f] at hf
  obtain ⟨b2, hb2, hp2⟩ := hp1.exists_rf hinv hf
  rw [mixLeft_mixLeft_same] at hp2
  exact ⟨b1, hb1, hp2.block_unique hp ▸ hb2⟩

/-- Two pairs of rounds with the same keys give the block back (R91 (c)). -/
theorem enc2_enc2 {c : Cfg} (hok : c.roundOk = true) (hinv : ipInverse c = true) (b : Block) (k1 k2 : RoundKey) :
    ∃ b2, enc2 c b k1 k2 = .ok b2 ∧ enc2 c b2 k1 k2 = .ok b := by
  obtain ⟨p, hp⟩ := exists_ipPair hinv b
  obtain ⟨f1, hf1⟩ := roundF_of_roundOk hok (sub p 4 4) k1
  obtain ⟨f2, hf2⟩ := roundF_of_roundOk hok (sub p 4 4) k2
  obtain ⟨b2, hb2, hp2⟩ := hp.exists_enc2 hinv hf1 hf2
  rw [← right_mixLeft p (f1 ^^^ f2)] at hf1 hf2
  obtain ⟨b4, hb4, hp4⟩ := hp2.exists_enc2 hinv hf1 hf2
  rw [mixLeft_mixLeft_same] at hp4
  exact ⟨b2, hb2, hp4.block_unique hp ▸ hb4⟩

/-- Settles O41: the permuted ciphertext is the permuted plaintext with both values mixed into Left. -/
theorem encryptAltersLeftHalfOnly : Obligations.EncryptAltersLeftHalfOnly := by
  intro c b k1 k2 hok hinv
  obtain ⟨p, hp⟩ := exists_ipPair hinv b
  obtain ⟨f1, hf1⟩ := roundF_of_roundOk hok (sub p 4 4) k1
  obtain ⟨f2, hf2⟩ := roundF_of_roundOk hok (sub p 4 4) k2
  obtain ⟨b2, hb2, hp2⟩ := hp.exists_enc2 hinv hf1 hf2
  refine ⟨b2, p, _, f1, f2, hb2, hp.perm_ip, hp2.perm_ip, hf1, hf2, right_mixLeft p _, ?_⟩
  rw [left_mixLeft, BitVec.xor_comm, BitVec.xor_assoc]

/-! ### ROUND and ENCRYPT -/

/-- The write to BLK that ROUND and ENCRYPT share: the valid bits are tested first, then the computed block is written. -/
def blockWrites (s : State) (r : Except FaultKind Block) : Except FaultKind State :=
  if s.rkv && s.blkv then r.map s.setBlk else .error .operandNotReady

theorem exec_round_eq (sel : KeySel) (s : State) :
    exec (.round sel) s = finish s (blockWrites s (rf s.rom s.blk (s.roundKey sel))) := by
  rw [exec_eq_finish, writes, roundWrites_eq, blockWrites]

theorem exec_encrypt_eq (s : State) : exec .encrypt s = finish s (blockWrites s (enc2 s.rom s.blk s.k1 s.k2)) := by
  rw [exec_eq_finish, writes, encryptWrites_eq, blockWrites]

theorem blockWrites_of_not_ready {s : State} (h : s.rkv = false ∨ s.blkv = false) (r : Except FaultKind Block) :
    blockWrites s r = .error .operandNotReady := by
  rcases h with h | h <;> simp [blockWrites, h]

theorem blockWrites_of_ready {s : State} (hr : s.rkv = true) (hb : s.blkv = true) (r : Except FaultKind Block) :
    blockWrites s r = r.map s.setBlk := if_pos (Bool.and_eq_true_iff.mpr ⟨hr, hb⟩)

/-- A command that writes BLK faults where an operand is not ready, and where the computation of its block faults. -/
theorem finish_blockWrites_faults (s : State) (r : Except FaultKind Block) :
    (s.rkv = false ∨ s.blkv = false → ∃ t, finish s (blockWrites s r) = .next t ∧ FaultedWith 5#3 s t) ∧
    (∀ f, s.rkv = true → s.blkv = true → r = .error f →
      ∃ t, finish s (blockWrites s r) = .next t ∧ FaultedWith f.code s t) := by
  refine ⟨fun h => ?_, fun f hr hb hf => ?_⟩
  · rw [blockWrites_of_not_ready h]
    exact ⟨_, rfl, faultedWith_faultEntry s .operandNotReady⟩
  · rw [blockWrites_of_ready hr hb, hf]
    exact ⟨_, rfl, faultedWith_faultEntry s f⟩

theorem exec_round_of_ok {s : State} {sel : KeySel} {b : Block} (hr : s.rkv = true) (hb : s.blkv = true)
    (h : rf s.rom s.blk (s.roundKey sel) = .ok b) : exec (.round sel) s = .next (s.setBlk b) := by
  rw [exec_round_eq, blockWrites_of_ready hr hb, h]
  rfl

theorem exec_encrypt_of_ok {s : State} {b : Block} (hr : s.rkv = true) (hb : s.blkv = true)
    (h : enc2 s.rom s.blk s.k1 s.k2 = .ok b) : exec .encrypt s = .next (s.setBlk b) := by
  rw [exec_encrypt_eq, blockWrites_of_ready hr hb, h]
  rfl

/-- Writing BLK leaves the key that ROUND selects. -/
theorem State.roundKey_setBlk (s : State) (b : Block) (sel : KeySel) : (s.setBlk b).roundKey sel = s.roundKey sel := by
  cases sel <;> rfl

/-- Settles O36: ROUND ends as a write to BLK does; the second of two finds the same key and tables, so RF undoes RF. -/
theorem roundFollowsItsRule : Obligations.RoundFollowsItsRule := by
  refine ⟨by decide, fun s sel => ?_⟩
  obtain ⟨hnotReady, hfault⟩ := finish_blockWrites_faults s (rf s.rom s.blk (s.roundKey sel))
  rw [← exec_round_eq] at hnotReady hfault
  refine ⟨by cases sel <;> rfl, hnotReady, hfault, fun b hr hb h => exec_round_of_ok hr hb h, fun hr hb hok hinv => ?_⟩
  obtain ⟨b1, hb1, hback⟩ := roundFunctionIsItsOwnInverse s.rom s.blk (s.roundKey sel) hok hinv
  rw [← s.roundKey_setBlk b1] at hback
  exact ⟨s.setBlk b1, exec_round_of_ok hr hb hb1, exec_round_of_ok (s := s.setBlk b1) hr hb hback⟩

/-- Settles O37: ENCRYPT ends as a write to BLK does; the second ROUND writes over the first one's block. -/
theorem encryptFollowsItsRule : Obligations.EncryptFollowsItsRule := by
  refine ⟨by decide, fun s => ?_⟩
  obtain ⟨hnotReady, hfault⟩ := finish_blockWrites_faults s (enc2 s.rom s.blk s.k1 s.k2)
  rw [← exec_encrypt_eq] at hnotReady hfault
  refine ⟨hnotReady, hfault, fun b hr hb h => ⟨exec_encrypt_of_ok hr hb h, ?_⟩⟩
  cases hb1 : rf s.rom s.blk s.k1 with
  | error f => cases h.symm.trans ((twoRoundsCompose _ _ _ _).1 f hb1)
  | ok b1 =>
    have hb2 : rf s.rom b1 s.k2 = .ok b := (enc2_eq_of_rf_eq_ok hb1 s.k2).symm.trans h
    exact ⟨s.setBlk b1, exec_round_of_ok hr hb hb1, exec_round_of_ok (s := s.setBlk b1) hr hb hb2⟩

/-- Settles O38: over legal tables no round faults. -/
theorem roundsCompleteWhenReady : Obligations.RoundsCompleteWhenReady := by
  intro s hr hb hok
  refine ⟨fun sel => ?_, ?_⟩
  · have hrf := rf_of_roundOk hok s.blk (s.roundKey sel)
    exact ⟨_, hrf, exec_round_of_ok hr hb hrf⟩
  · have hb1 := rf_of_roundOk hok s.blk s.k1
    have hb2 := rf_of_roundOk hok (roundValue s.rom s.blk s.k1).out s.k2
    exact ⟨_, _, hb1, hb2, exec_encrypt_of_ok hr hb ((enc2_eq_of_rf_eq_ok hb1 s.k2).trans hb2)⟩

/-- Settles O40: the second ENCRYPT finds the same keys and tables, so its two rounds undo the first one's. -/
theorem encryptTwiceReturnsThePlaintext : Obligations.EncryptTwiceReturnsThePlaintext := by
  intro s hr hb hok hinv
  obtain ⟨b2, hb2, hback⟩ := enc2_enc2 hok hinv s.blk s.k1 s.k2
  exact ⟨s.setBlk b2, exec_encrypt_of_ok hr hb hb2, exec_encrypt_of_ok (s := s.setBlk b2) hr hb hback⟩

end Sys2Proof.Machine
end

section
/-! PROOFS. The commands that do no cipher computation: which words are NOP, what LDKEY and LDBLK write, and what they leave
(43_host_commands.md R96 to R98). -/

namespace Sys2Proof.Machine

/-! ### NOP -/

/-- NOP is the word `0x0000` (R96). -/
theorem decode_eq_nop_iff (w : CmdWord) : decode w = .ok .nop ↔ w = 0x0000#16 :=
  decode_eq_ok_iff.trans eq_comm

/-- NOP alone has the operation code 0 (R47). -/
theorem eq_nop_of_opOf_eq_zero {i : Instr} (h : opOf i = 0x0#4) : i = .nop := by
  cases i with
  | nop => rfl
  | ldkey k | ldblk b | keygen | round sel | encrypt => simp [opOf] at h

/-- A word with `OP = 0` is NOP or reserved (R48 (c), R96). -/
theorem decode_eq_error_iff_ne_nop {w : CmdWord} (hop : busField w 12 4 = 0x0#4) :
    (∃ e, decode w = .error e) ↔ decode w ≠ .ok .nop := by
  cases h : decode w with
  | error e => simp
  | ok i =>
    obtain ⟨hi, -, -⟩ := encode_eq_iff.mp (decode_eq_ok_iff.mp h)
    simp [eq_nop_of_opOf_eq_zero (hi.symm.trans hop)]

/-- Without RST a core accepts exactly what is presented while it is not halted (R95). -/
theorem State.accepts_iff (s : State) {p : Pins} (hrst : p.rst = false) :
    s.accepts p = true ↔ p.cmdValid = true ∧ s.halt = false := by
  simp [State.accepts, State.cmdReady, hrst]

/-- Without RST a sample that is not accepted is passed over (R110, R120). -/
theorem step_of_not_accepts {s : State} {p : Pins} {ps : List Pins} (hp : s.pins = p :: ps) (hrst : p.rst = false)
    (ha : s.accepts p = false) : step s = .next (s.withPins ps) := by
  have ha' : (s.withPins ps).accepts p = false := ha
  rw [step, handshake, hp]
  simp only [pinStep, hrst, ha', Bool.false_eq_true, if_false]

/-- Settles O42: NOP writes nothing when it is accepted, and is passed over when it is not. -/
theorem nopChangesNothing : Obligations.NopChangesNothing := by
  refine ⟨fun w hop => ⟨decode_eq_nop_iff w, ?_⟩, fun s => ⟨rfl, fun p ps hp hrst hcmd => ⟨?_, ?_⟩⟩⟩
  · rw [decode_eq_error_iff_ne_nop hop, ne_eq, decode_eq_nop_iff]
  · cases ha : s.accepts p with
    | false => exact step_of_not_accepts hp hrst ha
    | true =>
      obtain ⟨hvalid, hhalt⟩ := (s.accepts_iff hrst).mp ha
      rw [step_of_presented hp hrst hvalid hhalt, runWord_of_ok ((decode_eq_nop_iff p.cmd).mpr hcmd)]
      rfl
  · exact fun hhalt => State.not_accepts_of_halt hhalt p

/-! ### LDKEY and LDBLK -/

/-- Writing one bit of STATUS leaves the others (R15). -/
theorem sameStatusBut_of_writeBit {s t : State} {n : Nat} {b : Bool} (hn : n < 8) (h : t.status = writeBit s.status n b) :
    SameStatusBut [n] s t := by
  intro m hm
  rw [h, getLsbD_writeBit _ _ _ hn, if_neg (List.ne_of_not_mem_cons hm)]

/-- Two writes to STATUS leave the bits that neither of them writes. -/
theorem SameStatusBut.trans {l m : List Nat} {s t u : State} (hst : SameStatusBut l s t)
    (htu : SameStatusBut m t u) : SameStatusBut (l ++ m) s u := by
  intro n hn
  obtain ⟨hl, hm⟩ := not_or.mp (mt List.mem_append.mpr hn)
  exact (htu n hm).trans (hst n hl)

/-- Settles O43: LDKEY cannot fault, and writes STATUS by its two valid bits alone. -/
theorem ldkeyLoadsAndInvalidates : Obligations.LdkeyLoadsAndInvalidates := by
  refine ⟨fun k => ?_, fun s k => ⟨_, rfl, rfl, rfl, rfl, by simp, by simp, ?_, rfl, by simp, rfl, rfl⟩⟩
  · rw [encode_eq_or, opOf, argOf]
    rfl
  · have hkeyv : SameStatusBut [0] s (((s.setKey k).setRoundKeys 0#8 0#8).setKeyv true) :=
      sameStatusBut_of_writeBit (b := true) (by decide) rfl
    exact hkeyv.trans (sameStatusBut_setRkv _ false)

/-- Settles O44: LDBLK cannot fault, and writes STATUS by its valid bit alone. -/
theorem ldblkLoadsTheBlock : Obligations.LdblkLoadsTheBlock := by
  refine ⟨fun b => ?_, fun s b => ⟨_, rfl, rfl, by simp, ?_, rfl, rfl, rfl, by simp, by simp, rfl, rfl⟩⟩
  · rw [encode_eq_or, opOf, argOf, BitVec.setWidth_setWidth (by decide)]
    rfl
  · exact sameStatusBut_of_writeBit (b := true) (by decide) rfl

end Sys2Proof.Machine
end

section
/-! PROOFS. The clocked view against the step (43_host_commands.md R95; 70_reset_and_hazards.md R121, R123): the cycles of a
command before its last only count down. -/

namespace Sys2Proof.Machine

/-- A word always runs to a next state, its completion. -/
theorem runWord_eq_next_completed (w : CmdWord) (s : State) : runWord w s = .next (completed w s) := by
  obtain ⟨t, ht⟩ : ∃ t, runWord w s = .next t := by
    cases h : decode w with
    | ok i =>
      rw [runWord_of_ok h, exec_eq_finish]
      exact finish_answers s _
    | error e => exact ⟨_, runWord_of_error h s⟩
  rw [completed, ht]

/-- The cycle in which an idle core accepts a word is the first of its cycles (R95). -/
theorem tick_of_presented (extra : CmdWord → Nat) {s : State} {p : Pins} (hrst : p.rst = false) (hvalid : p.cmdValid = true)
    (hhalt : s.halt = false) : tick extra p { core := s, busy := none } = advance p.cmd (extra p.cmd) s := by
  simp [tick, Clocked.cmdReady, State.cmdReady, hrst, hvalid, hhalt]

/-- Without RST a busy core goes on with its command, whatever the command pins hold (R95, R120). -/
theorem tick_of_busy (extra : CmdWord → Nat) {q : Pins} (hrst : q.rst = false) (w : CmdWord) (n : Nat) (s : State) :
    tick extra q { core := s, busy := some (w, n) } = advance w n s := by
  simp [tick, hrst]

/-- A busy core counts one cycle down for each sample without RST. -/
theorem ticks_advance (extra : CmdWord → Nat) (w : CmdWord) (s : State) (n : Nat) (ps : List Pins)
    (hps : ∀ q ∈ ps, q.rst = false) : ticks extra ps (advance w (ps.length + n) s) = advance w n s := by
  induction ps with
  | nil => rw [ticks, List.length_nil, Nat.zero_add]
  | cons q ps ih =>
    obtain ⟨hq, hps⟩ := List.forall_mem_cons.mp hps
    rw [List.length_cons, Nat.add_right_comm, ticks, advance, tick_of_busy extra hq]
    exact ih hps

/-- Settles O55: after the cycle of acceptance and `ps.length` more, the command has the rest of its cycles to go; with none
left it has completed, in the state that the step answers. -/
theorem clockedCommandRefinesTheStep : Obligations.ClockedCommandRefinesTheStep := by
  intro extra s p ps hrst hvalid hhalt hps
  have hticks (n : Nat) (h : extra p.cmd = ps.length + n) :
      ticks extra (p :: ps) { core := s, busy := none } = advance p.cmd n s := by
    rw [ticks, tick_of_presented extra hrst hvalid hhalt, h, ticks_advance extra p.cmd s n ps hps]
  refine ⟨fun hlt => ?_, fun heq => ⟨completed p.cmd s, ?_, ?_⟩⟩
  · obtain ⟨n, hn⟩ := Nat.exists_eq_add_of_lt hlt
    rw [hticks (n + 1) hn]
    exact ⟨rfl, fun _ => rfl⟩
  · rw [step_of_presented (State.pins_withPins s _) hrst hvalid hhalt, State.withPins_withPins, State.withPins_pins,
      runWord_eq_next_completed]
  · exact hticks 0 heq.symm

end Sys2Proof.Machine
end

section
/-! PROOFS. Faults and the halted core (60_exceptions.md R100 to R120; 70_reset_and_hazards.md R124): every step answers, what a
halted core does with its pins, how a step comes to halt the core, which fault a command reports, and that a run does not
depend on the samples after it. -/

namespace Sys2Proof.Machine

/-! ### Every step answers -/

theorem exec_answers (i : Instr) (s : State) : ∃ t, exec i s = .next t := by
  rw [exec_eq_finish]
  exact finish_answers s _

theorem pinStep_answers (p : Pins) (s : State) : ∃ t, pinStep p s = .next t := by
  unfold pinStep
  split
  · exact ⟨_, rfl⟩
  · split
    · exact ⟨_, runWord_eq_next_completed p.cmd s⟩
    · exact ⟨_, rfl⟩

theorem step_of_no_pins {s : State} (hp : s.pins = []) : step s = .next s := by
  rw [step, handshake, hp]

theorem step_of_pins {s : State} {p : Pins} {ps : List Pins} (hp : s.pins = p :: ps) :
    step s = pinStep p (s.withPins ps) := by
  rw [step, handshake, hp]

/-- Settles O14: with no sample the core waits, and every sample and every command is answered. -/
theorem everyStepAnswersANextState : Obligations.EveryStepAnswersANextState := by
  refine ⟨fun s => ?_, exec_answers⟩
  cases hp : s.pins with
  | nil => exact ⟨s, step_of_no_pins hp⟩
  | cons p ps =>
    rw [step_of_pins hp]
    exact pinStep_answers p _

/-! ### Waiting, halted, reset -/

/-- Settles O13: what is not presented is not accepted. -/
theorem idleCoreWaits : Obligations.IdleCoreWaits := by
  refine fun s => ⟨step_of_no_pins, fun p ps hp hrst hvalid => step_of_not_accepts hp hrst ?_⟩
  rw [State.accepts, hvalid, Bool.false_and]

/-- A halted core is not ready, in reset or not (R110). -/
theorem State.cmdReady_of_halt {s : State} (h : s.halt = true) (rst : Bool) : s.cmdReady rst = false := by
  rw [State.cmdReady, h, Bool.not_true, Bool.and_false]

/-- RST resets the core, halted or not (R115). -/
theorem step_of_rst {s : State} {p : Pins} {ps : List Pins} (hp : s.pins = p :: ps) (hrst : p.rst = true) :
    step s = .next (s.withPins ps).resetCore := by
  rw [step_of_pins hp, pinStep, if_pos hrst]

theorem State.halt_resetCore (s : State) : s.resetCore.halt = false := by
  rw [State.halt, State.status_resetCore, BitVec.getLsbD_zero]

/-- A step without RST of a halted core uses up its pin sample and does nothing else (R110). -/
theorem step_of_halt {s : State} (h : s.halt = true) (hrst : ∀ p ∈ s.pins.head?, p.rst = false) :
    step s = .next (s.withPins s.pins.tail) := by
  cases hp : s.pins with
  | nil =>
    rw [step_of_no_pins hp, List.tail_nil, ← hp]
    rfl
  | cons p ps =>
    rw [hp] at hrst
    exact step_of_not_accepts hp (hrst p rfl) (State.not_accepts_of_halt h p)

/-- The first step of a run of this machine. -/
theorem run_succ_of_core_step {s t : State} (n : Nat) (h : step s = .next t) :
    Host.Core.run Sys2Proof.core (n + 1) s = Host.Core.run Sys2Proof.core n t :=
  run_succ_of_step (M := Sys2Proof.core) n h

/-- A halted core passes over any samples without RST (R110). -/
theorem run_of_halt {s : State} (h : s.halt = true) (ps : List Pins) (hrst : ∀ p ∈ ps, p.rst = false) :
    Host.Core.run Sys2Proof.core ps.length (s.withPins ps) = .next (s.withPins []) := by
  induction ps with
  | nil => rfl
  | cons p ps ih =>
    obtain ⟨hp, hps⟩ := List.forall_mem_cons.mp hrst
    have hstep : step (s.withPins (p :: ps)) = .next (s.withPins ps) :=
      step_of_halt (s := s.withPins (p :: ps)) h (by simpa using hp)
    exact (run_succ_of_core_step ps.length hstep).trans (ih hps)

/-- Settles O12: samples without RST are passed over, and RST zeroes `HALT` with the registers. -/
theorem haltIsTerminalUntilReset : Obligations.HaltIsTerminalUntilReset := by
  refine fun s h => ⟨s.cmdReady_of_halt h, run_of_halt h, fun p ps hrst => ?_⟩
  exact ⟨_, step_of_rst (State.pins_withPins s _) hrst, State.halt_resetCore _, rfl, rfl, rfl, rfl⟩

/-! ### Fault entry -/

/-- Settles O16: fault entry halts the core, and the next step without RST leaves it halted. -/
theorem faultEntryWritesErrAndHaltOnly : Obligations.FaultEntryWritesErrAndHaltOnly := by
  intro s c
  obtain ⟨herr, hhalt, hframe, -⟩ := faultedWith_faultEntry s c
  obtain ⟨hkeyv, hrkv, hblkv⟩ := s.validBits_faultEntry c
  refine ⟨herr, hhalt, hkeyv, hrkv, hblkv, hframe, hhalt, State.cmdReady_of_halt hhalt, fun t hrst h => ?_⟩
  rw [step_of_halt hhalt hrst] at h
  cases h
  exact ⟨hhalt, State.cmdReady_of_halt hhalt⟩

/-- Settles O17, by the status word that fault entry writes. -/
theorem faultCodesAreAsListed : Obligations.FaultCodesAreAsListed := by
  refine ⟨⟨rfl, rfl, rfl, rfl, rfl⟩, fun s h => ?_⟩
  simp only [State.statusO, State.status_faultEntry, h]
  decide

/-- The codes of the faults that the core itself raises (R100, R103). -/
theorem FaultKind.code_mem_of_core {c : FaultKind} (h : c ≠ .malformedBitInput) : c.code ∈ [1#3, 2#3, 4#3, 5#3] := by
  cases c with
  | malformedBitInput => exact absurd rfl h
  | invalidTableIndex | lengthMismatch | illegalCommand | operandNotReady => decide

/-- A command that completes leaves `HALT` as it was (R19). -/
theorem Completes.halt {i : Instr} {s t : State} (h : Completes i s t) : t.halt = s.halt := by
  obtain ⟨-, -, hstatus⟩ := h.frame
  exact hstatus haltBit le_rfl

/-- A step halts the core by fault entry alone, with a fault that the core itself raises (R108). -/
theorem eq_faultEntry_of_step_halts {s t : State} (hs : s.halt = false) (h : step s = .next t) (ht : t.halt = true) :
    ∃ ps c, c ≠ .malformedBitInput ∧ t = (s.withPins ps).faultEntry c := by
  have hhalted : t.halt ≠ false := by simp [ht]
  rcases step_cases h with ⟨-, rfl⟩ | ⟨p, ps, -, ⟨-, rfl⟩ | ⟨-, -, rfl⟩ | ⟨-, -, i, -, hx⟩ | ⟨-, -, e, -, rfl⟩⟩
  · exact absurd hs hhalted
  · exact absurd (State.halt_resetCore _) hhalted
  · exact absurd hs hhalted
  · rcases exec_cases_of_core hx with hc | ⟨c, hcore, rfl⟩
    · exact absurd (hc.halt.trans hs) hhalted
    · exact ⟨ps, c, hcore, rfl⟩
  · exact ⟨ps, .illegalCommand, nofun, rfl⟩

/-- Settles O18: the step is fault entry, which has its frame. -/
theorem faultingStepWritesNothingElse : Obligations.FaultingStepWritesNothingElse := by
  intro s t hs h ht
  obtain ⟨ps, c, hcore, rfl⟩ := eq_faultEntry_of_step_halts hs h ht
  obtain ⟨herr, -, hframe, -⟩ := faultedWith_faultEntry (s.withPins ps) c
  exact ⟨hframe, herr ▸ FaultKind.code_mem_of_core hcore⟩

/-! ### The fault that is reported -/

/-- The computation ends like the round: with the same fault, or without one. -/
def EndsLikeRound (c : Cfg) (b : Block) (k : RoundKey) (r : Except FaultKind Block) : Prop :=
  (∀ f, rf c b k = .error f → r = .error f) ∧ ∀ b1, rf c b k = .ok b1 → ∃ b2, r = .ok b2

theorem endsLikeRound_rf (c : Cfg) (b : Block) (k : RoundKey) : EndsLikeRound c b k (rf c b k) :=
  ⟨fun _ h => h, fun b1 h => ⟨b1, h⟩⟩

/-- The second round of ENC2 adds no fault to the first one's (R90). -/
theorem endsLikeRound_enc2 (c : Cfg) (b : Block) (k1 k2 : RoundKey) : EndsLikeRound c b k1 (enc2 c b k1 k2) := by
  obtain ⟨hfault, hcomplete⟩ := twoRoundsCompose c b k1 k2
  refine ⟨hfault, fun b1 hb1 => ?_⟩
  obtain ⟨b2, -, hb2⟩ := hcomplete b1 hb1
  exact ⟨b2, hb2⟩

/-- ROUND and ENCRYPT are writes to BLK of a computation that ends like a round. -/
theorem exec_eq_finish_blockWrites {i : Instr} (hi : i = .round .k1 ∨ i = .round .k2 ∨ i = .encrypt) (s : State) :
    ∃ k r, exec i s = finish s (blockWrites s r) ∧ EndsLikeRound s.rom s.blk k r := by
  rcases hi with rfl | rfl | rfl
  · exact ⟨_, _, exec_round_eq .k1 s, endsLikeRound_rf _ _ _⟩
  · exact ⟨_, _, exec_round_eq .k2 s, endsLikeRound_rf _ _ _⟩
  · exact ⟨_, _, exec_encrypt_eq s, endsLikeRound_enc2 _ _ _ _⟩

theorem faultedWith_of_finish_error {s t : State} {c : FaultKind} (h : finish s (.error c) = .next t) :
    FaultedWith c.code s t := by
  cases h
  exact faultedWith_faultEntry s c

/-- Settles O19: KEYGEN by its endings; ROUND and ENCRYPT by their operands, then by the step order of a round. -/
theorem firstFaultIsReported : Obligations.FirstFaultIsReported := by
  refine fun s => ⟨fun w e _ hw => ?_, fun hv => ?_, fun hv hbad => ?_, fun i hi => ?_⟩
  · exact ⟨_, runWord_of_error hw s, faultedWith_faultEntry s .illegalCommand⟩
  · exact ⟨_, exec_keygen_of_not_keyv hv, faultedWith_faultEntry s .operandNotReady⟩
  · have hks := ks_of_keyScheduleOk_eq_false hbad s.key
    exact ⟨_, exec_keygen_of_ks_error hv hks, faultedWith_faultEntry s .invalidTableIndex⟩
  · obtain ⟨k, r, hexec, hfault, hcomplete⟩ := exec_eq_finish_blockWrites hi s
    obtain ⟨t, ht⟩ := finish_answers s (blockWrites s r)
    refine ⟨t, hexec.trans ht, ?_⟩
    split
    · next hnotReady =>
      rw [blockWrites_of_not_ready hnotReady] at ht
      exact faultedWith_of_finish_error ht
    · next hready =>
      obtain ⟨hr, hb⟩ := not_or.mp hready
      rw [blockWrites_of_ready (eq_true_of_ne_false hr) (eq_true_of_ne_false hb)] at ht
      have hreport (f : FaultKind) (hf : rf s.rom s.blk k = .error f) : FaultedWith f.code s t := by
        rw [hfault f hf] at ht
        exact faultedWith_of_finish_error ht
      have horder := roundFaultsInStepOrder s.rom s.blk k
      split_ifs at horder ⊢
      · exact hreport _ horder
      · exact hreport _ horder
      · exact hreport _ horder
      · exact hreport _ horder
      · obtain ⟨b1, hb1⟩ := horder
        obtain ⟨b2, rfl⟩ := hcomplete b1 hb1
        cases ht
        rfl

/-! ### Runs and the samples after them -/

theorem exec_withPins {i : Instr} {s t : State} (h : exec i s = .next t) (qs : List Pins) :
    exec i (s.withPins qs) = .next (t.withPins qs) := by
  rw [exec_eq_finish] at h ⊢
  rw [writes_withPins]
  rcases finish_eq_next.mp h with hw | ⟨c, hw, rfl⟩ <;> rw [hw] <;> rfl

theorem runWord_withPins {w : CmdWord} {s t : State} (h : runWord w s = .next t) (qs : List Pins) :
    runWord w (s.withPins qs) = .next (t.withPins qs) := by
  cases hw : decode w with
  | ok i =>
    rw [runWord_of_ok hw] at h ⊢
    exact exec_withPins h qs
  | error e =>
    rw [runWord_of_error hw] at h ⊢
    cases h
    rfl

/-- What the host will drive later has no part in what the core does with a sample. -/
theorem pinStep_withPins {p : Pins} {s t : State} (h : pinStep p s = .next t) (qs : List Pins) :
    pinStep p (s.withPins qs) = .next (t.withPins qs) := by
  have ha : (s.withPins qs).accepts p = s.accepts p := rfl
  unfold pinStep at h ⊢
  rw [ha]
  split at h
  · next hrst =>
    cases h
    rw [if_pos hrst]
    rfl
  · next hrst =>
    rw [if_neg hrst]
    split at h
    · next hacc =>
      rw [if_pos hacc]
      exact runWord_withPins h qs
    · next hacc =>
      cases h
      rw [if_neg hacc]

/-- A run over its samples goes the same way when more samples follow, and leaves those. -/
theorem run_append_pins {s t : State} (ps qs : List Pins)
    (h : Host.Core.run Sys2Proof.core ps.length (s.withPins ps) = .next t) :
    Host.Core.run Sys2Proof.core ps.length (s.withPins (ps ++ qs)) = .next (t.withPins qs) := by
  induction ps generalizing s with
  | nil =>
    cases h
    rfl
  | cons p ps ih =>
    obtain ⟨u, hu⟩ := pinStep_answers p s
    have hstep (rs : List Pins) : Host.Core.run Sys2Proof.core (ps.length + 1) (s.withPins (p :: rs)) =
        Host.Core.run Sys2Proof.core ps.length (u.withPins rs) :=
      run_succ_of_core_step _ ((step_of_pins (State.pins_withPins s _)).trans (pinStep_withPins hu rs))
    exact (hstep (ps ++ qs)).trans (ih ((hstep ps).symm.trans h))

/-- A run that answers a state can be followed by further steps from there. -/
theorem run_add_of_run {M : Host.Core} {s t : M.State} (m n : Nat) (h : M.run m s = .next t) :
    M.run (m + n) s = M.run n t := by
  induction m generalizing s with
  | zero =>
    cases h
    rw [Nat.zero_add]
  | succ m ih =>
    rw [Host.Core.run] at h
    split at h
    · next u hu =>
      rw [Nat.add_right_comm, run_succ_of_step _ hu]
      exact ih h
    · cases h
    · cases h

/-- Settles O60: the run of the first words leaves the other words to a halted core, which passes over them. -/
theorem haltedRunAcceptsNoFurtherWord : Obligations.HaltedRunAcceptsNoFurtherWord := by
  rintro ws more s t ⟨hrun, hhalt⟩
  rw [runWords, ← List.length_map (f := present)] at hrun
  have hfirst := run_append_pins (ws.map present) (more.map present) hrun
  have hpins : t.withPins [] = t := by
    have hagain := run_append_pins (ws.map present) [] hrun
    rw [List.append_nil, hrun] at hagain
    exact (Host.Outcome.next.inj hagain).symm
  have hrest := run_of_halt hhalt (more.map present) (List.forall_mem_map.mpr fun _ _ => rfl)
  refine ⟨?_, hhalt⟩
  rw [runWords, List.map_append, ← List.length_map (f := present), List.map_append, List.length_append]
  exact ((run_add_of_run _ _ hfirst).trans hrest).trans (congrArg _ hpins)

end Sys2Proof.Machine
end

section
/-! PROOFS. Reset and the duties of whoever instantiates the core (70_reset_and_hazards.md R115 to R119). -/

namespace Sys2Proof.Machine

/-! ### Configuration duties -/

/-- The key schedule of any one key answers exactly when P10 and P8 are legal (R73, R119). -/
theorem ks_answers_iff (c : Cfg) (key : MasterKey) : (∃ r, ks c key = .ok r) ↔ c.keyScheduleOk = true := by
  refine ⟨fun ⟨r, hr⟩ => ?_, fun hok => ⟨_, ks_of_keyScheduleOk hok key⟩⟩
  by_contra hbad
  rw [ks_of_keyScheduleOk_eq_false (Bool.eq_false_of_not_eq_true hbad) key] at hr
  cases hr

/-- The round of any one block and round key answers exactly when IP, EP and IPINV are legal (R92, R119). -/
theorem rf_answers_iff (c : Cfg) (b : Block) (k : RoundKey) : (∃ r, rf c b k = .ok r) ↔ c.roundOk = true :=
  ⟨fun ⟨_, hr⟩ => roundOk_of_rf_eq_ok hr, fun hok => ⟨_, rf_of_roundOk hok b k⟩⟩

/-- Settles O20: whether KS and RF fault is decided by the tables alone, so one key, block and round key stand for all. -/
theorem configurationDutiesAreExact : Obligations.ConfigurationDutiesAreExact := by
  intro c
  simp only [Cfg.ok, Bool.and_eq_true, ks_answers_iff, rf_answers_iff, forall_const]

/-! ### Reset -/

/-- Settles O1: every register of a reset state is zero by definition, and the ports and flags read those zeros. -/
theorem resetStateIsAllZero : Obligations.ResetStateIsAllZero := by
  refine ⟨⟨rfl, rfl, rfl, rfl, rfl, rfl, rfl, rfl, rfl, rfl, rfl⟩, ⟨rfl, rfl, rfl, rfl, rfl, rfl⟩, fun s => ?_⟩
  exact ⟨s.rom_resetCore, s.key_resetCore, s.k1_resetCore, s.k2_resetCore, s.blk_resetCore, s.status_resetCore⟩

/-- While RST is asserted the core is not ready, halted or not (R115). -/
theorem State.cmdReady_of_rst {rst : Bool} (h : rst = true) (s : State) : s.cmdReady rst = false := by
  rw [State.cmdReady, h, Bool.not_true, Bool.false_and]

/-- Settles O2: a core that is not ready accepts nothing, and the sample with RST leads to the reset state. -/
theorem rstResetsFromEveryState : Obligations.RstResetsFromEveryState := by
  intro s p ps hp hrst
  have hready : s.cmdReady p.rst = false := State.cmdReady_of_rst hrst s
  refine ⟨?_, hready, _, step_of_rst hp hrst, ?_⟩
  · rw [State.accepts, hready, Bool.and_false]
  · simp

/-- A cycle with RST leaves the core idle and reset, whatever was in flight (R117). -/
theorem tick_of_rst (extra : CmdWord → Nat) (c : Clocked) {p : Pins} (hrst : p.rst = true) :
    tick extra p c = { core := c.core.resetCore, busy := none } :=
  if_pos hrst

/-- Settles O56: the core that RST leaves is the reset state over the same tables and coming pin samples. -/
theorem resetAbandonsTheCommandInFlight : Obligations.ResetAbandonsTheCommandInFlight := by
  intro extra c p hrst
  rw [tick_of_rst extra c hrst]
  exact ⟨rfl, rfl⟩

end Sys2Proof.Machine
end
